-- ==== Sys2Proof/Word.lean ====
section
/-! DEFINITION. The widths of the block's values (`spec/00_scope.md` R7, R8; `spec/10_state.md` R21, R30; `spec/30_encoding.md` R80, R81). -/

namespace Sys2Proof

/-- One byte of a serialized command word (R62). -/
abbrev Byte := BitVec 8

/-- A duration in microseconds: `DUR_W = 32` bits (R7). -/
abbrev Dur := BitVec 32

/-- A code value: `CODE_W = 64` bits (R7). -/
abbrev Code := BitVec 64

/-- A bit count register or field: 7 bits (R21, R81). -/
abbrev Count := BitVec 7

/-- A slot number field: 8 bits (R81). -/
abbrev SlotNo := BitVec 8

/-- A command word: 128 bits (R80). -/
abbrev CmdWord := BitVec 128

/-- `MAX_BITS`: the largest bit count (R7). -/
abbrev maxBits : Nat := 64

/-- `EOF_MULT`: the end-of-frame multiplier of `SHORT` (R7). -/
abbrev eofMult : Nat := 4

/-- A text of the host's codec, one character an element (R240 to R256). -/
abbrev Text := List Char

end Sys2Proof
end

