-- ==== Sys2Proof/Syntax.lean ====
section
/-! DEFINITION. The commands of the block, one constructor per row of `spec/opcode_table.json` (`spec/30_encoding.md` R82, R84), and the level of a pulse (`spec/00_scope.md` R12). -/

namespace Sys2Proof

/-- The level of a pulse (R12). -/
inductive Level where
  | low
  | high
  deriving DecidableEq, Repr

/-- One pulse, or one entry of the encoder buffer (R13, R33). -/
structure Pulse where
  /-- `LVL`. -/
  lvl : Level
  /-- `DUR`. -/
  dur : Dur
  deriving DecidableEq, Repr

/-- The commands with their operands, in the order of the assembler syntax (R82, R84, R90). -/
inductive Instr where
  /-- PULSE p, level, d (R130). -/
  | pulse (p : SlotNo) (lvl : Level) (d : Dur)
  /-- PULSE_ALL level, d (R260). -/
  | pulseAll (lvl : Level) (d : Dur)
  /-- RESET p (R137). -/
  | reset (p : SlotNo)
  /-- RESET_ALL (R262). -/
  | resetAll
  /-- ENCODE p, n, v (R191). -/
  | encode (p : SlotNo) (n : Count) (v : Code)
  /-- READ_ENC i (R198). -/
  | readEnc (i : BitVec 32)
  /-- REVERSE n, v (R173). -/
  | reverse (n : Count) (v : Code)
  /-- LOAD_LAST p, n, key (R222). -/
  | loadLast (p : SlotNo) (n : Count) (key : BitVec 32)
  /-- READ_LAST p (R224). -/
  | readLast (p : SlotNo)
  /-- READ_STATE p (R280). -/
  | readState (p : SlotNo)
  /-- READ_TEMPLATE p (R281). -/
  | readTemplate (p : SlotNo)
  deriving DecidableEq, Repr

end Sys2Proof
end

