-- ==== Sys2Proof/Decode.lean ====
section
/-! DEFINITION. The command word, its decoder and its encoder (`spec/30_encoding.md` R80 to R88, R92), and a command word as 16 bytes (`spec/20_memory.md` R62). -/

namespace Sys2Proof

/-- The level a field bit stands for: 1 is high, 0 is low (R12). -/
def Level.ofBit (b : BitVec 1) : Level := if b = 1 then .high else .low

/-- The field bit of a level (R12). -/
def Level.toBit : Level → BitVec 1
  | .low => 0
  | .high => 1

/-! ### The fields of a command word (R81) -/

/-- `OP`, `CW[7:0]`. -/
def CmdWord.op (w : CmdWord) : BitVec 8 := w.extractLsb' 0 8
/-- `SLOT`, `CW[15:8]`. -/
def CmdWord.slot (w : CmdWord) : SlotNo := w.extractLsb' 8 8
/-- `LVL`, `CW[16]`. -/
def CmdWord.lvl (w : CmdWord) : BitVec 1 := w.extractLsb' 16 1
/-- `NB`, `CW[23:17]`. -/
def CmdWord.nb (w : CmdWord) : Count := w.extractLsb' 17 7
/-- `RSV`, `CW[31:24]`. -/
def CmdWord.rsv (w : CmdWord) : BitVec 8 := w.extractLsb' 24 8
/-- `DUR` or `IDX`, `CW[63:32]`. -/
def CmdWord.dur (w : CmdWord) : Dur := w.extractLsb' 32 32
/-- `VAL`, `CW[127:64]`. -/
def CmdWord.val (w : CmdWord) : Code := w.extractLsb' 64 64
/-- `KEY`, `CW[95:64]`. -/
def CmdWord.key (w : CmdWord) : BitVec 32 := w.extractLsb' 64 32
/-- `CW[127:96]`, which LOAD_LAST wants zero. -/
def CmdWord.valHigh (w : CmdWord) : BitVec 32 := w.extractLsb' 96 32

/-- The defined opcodes (R82). -/
inductive Opcode where
  | pulse
  | pulseAll
  | reset
  | resetAll
  | encode
  | readEnc
  | reverse
  | loadLast
  | readLast
  | readState
  | readTemplate
  deriving DecidableEq, Repr

/-- The opcode an OP byte selects; none for the reserved ones (R82, R86). -/
def Opcode.ofByte (b : BitVec 8) : Option Opcode :=
  if b = 0x01 then some .pulse
  else if b = 0x02 then some .pulseAll
  else if b = 0x03 then some .reset
  else if b = 0x04 then some .resetAll
  else if b = 0x05 then some .encode
  else if b = 0x06 then some .readEnc
  else if b = 0x07 then some .reverse
  else if b = 0x08 then some .loadLast
  else if b = 0x09 then some .readLast
  else if b = 0x0A then some .readState
  else if b = 0x0B then some .readTemplate
  else none

/-- `match` of an opcode: its number in `CW[7:0]`, zero elsewhere (R83). -/
def Opcode.pattern : Opcode → CmdWord
  | .pulse => 0x00000000_00000000_00000000_00000001
  | .pulseAll => 0x00000000_00000000_00000000_00000002
  | .reset => 0x00000000_00000000_00000000_00000003
  | .resetAll => 0x00000000_00000000_00000000_00000004
  | .encode => 0x00000000_00000000_00000000_00000005
  | .readEnc => 0x00000000_00000000_00000000_00000006
  | .reverse => 0x00000000_00000000_00000000_00000007
  | .loadLast => 0x00000000_00000000_00000000_00000008
  | .readLast => 0x00000000_00000000_00000000_00000009
  | .readState => 0x00000000_00000000_00000000_0000000A
  | .readTemplate => 0x00000000_00000000_00000000_0000000B

/-- `mask` of an opcode: OP and every must-be-zero bit (R83). -/
def Opcode.mask : Opcode → CmdWord
  | .pulse => 0xFFFFFFFF_FFFFFFFF_00000000_FFFE00FF
  | .pulseAll => 0xFFFFFFFF_FFFFFFFF_00000000_FFFEFFFF
  | .reset => 0xFFFFFFFF_FFFFFFFF_FFFFFFFF_FFFF00FF
  | .resetAll => 0xFFFFFFFF_FFFFFFFF_FFFFFFFF_FFFFFFFF
  | .encode => 0x00000000_00000000_FFFFFFFF_FF0100FF
  | .readEnc => 0xFFFFFFFF_FFFFFFFF_00000000_FFFFFFFF
  | .reverse => 0x00000000_00000000_FFFFFFFF_FF01FFFF
  | .loadLast => 0xFFFFFFFF_00000000_FFFFFFFF_FF0100FF
  | .readLast => 0xFFFFFFFF_FFFFFFFF_FFFFFFFF_FFFF00FF
  | .readState => 0xFFFFFFFF_FFFFFFFF_FFFFFFFF_FFFF00FF
  | .readTemplate => 0xFFFFFFFF_FFFFFFFF_FFFFFFFF_FFFF00FF

/-- Assemble the operands of a command from its fields (R84). -/
def Opcode.assemble (w : CmdWord) : Opcode → Instr
  | .pulse => .pulse w.slot (Level.ofBit w.lvl) w.dur
  | .pulseAll => .pulseAll (Level.ofBit w.lvl) w.dur
  | .reset => .reset w.slot
  | .resetAll => .resetAll
  | .encode => .encode w.slot w.nb w.val
  | .readEnc => .readEnc w.dur
  | .reverse => .reverse w.nb w.val
  | .loadLast => .loadLast w.slot w.nb w.key
  | .readLast => .readLast w.slot
  | .readState => .readState w.slot
  | .readTemplate => .readTemplate w.slot

/-- Why a word, or a list of bytes, is no command. The block answers the first two with ILLEGAL. -/
inductive DecodeError where
  /-- The OP byte is reserved (R86, check 1 of R87). -/
  | reservedOpcode
  /-- A must-be-zero bit is set (R85, check 2 of R87). -/
  | nonZeroReservedBits
  /-- A serialized command is not 16 bytes long (R62, log entry 13). -/
  | notSixteenBytes
  deriving DecidableEq, Repr

/-- The decoder of command words: total, and ILLEGAL words are rejected by name (R85 to R88). -/
def decode (w : CmdWord) : Except DecodeError Instr :=
  match Opcode.ofByte w.op with
  | none => .error .reservedOpcode
  | some o => if w &&& o.mask = o.pattern then .ok (o.assemble w) else .error .nonZeroReservedBits

/-! ### The encoder -/

/-- The word of seven fields (R81), the most significant first. -/
def packWord (val : Code) (dur : Dur) (rsv : BitVec 8) (nb : Count) (lvl : BitVec 1) (slot : SlotNo) (op : BitVec 8) : CmdWord :=
  (val ++ dur ++ rsv ++ nb ++ lvl ++ slot ++ op).cast rfl

/-- The word of a command: the fields it uses, and zero in every other (R82, R83). -/
def encode : Instr → CmdWord
  | .pulse p lvl d => packWord 0 d 0 0 lvl.toBit p 0x01
  | .pulseAll lvl d => packWord 0 d 0 0 lvl.toBit 0 0x02
  | .reset p => packWord 0 0 0 0 0 p 0x03
  | .resetAll => packWord 0 0 0 0 0 0 0x04
  | .encode p n v => packWord v 0 0 n 0 p 0x05
  | .readEnc i => packWord 0 i 0 0 0 0 0x06
  | .reverse n v => packWord v 0 0 n 0 0 0x07
  | .loadLast p n key => packWord (key.setWidth 64) 0 0 n 0 p 0x08
  | .readLast p => packWord 0 0 0 0 0 p 0x09
  | .readState p => packWord 0 0 0 0 0 p 0x0A
  | .readTemplate p => packWord 0 0 0 0 0 p 0x0B

/-- The opcode of a command (R82). -/
def Instr.opcode : Instr → Opcode
  | .pulse _ _ _ => .pulse
  | .pulseAll _ _ => .pulseAll
  | .reset _ => .reset
  | .resetAll => .resetAll
  | .encode _ _ _ => .encode
  | .readEnc _ => .readEnc
  | .reverse _ _ => .reverse
  | .loadLast _ _ _ => .loadLast
  | .readLast _ => .readLast
  | .readState _ => .readState
  | .readTemplate _ => .readTemplate

/-! ### A command word as bytes (R62) -/

/-- Byte `k` of a serialized command word is `CW[8k+7 : 8k]`. -/
def bytesOfWord (w : CmdWord) : List Byte :=
  (List.range 16).map fun k => w.extractLsb' (8 * k) 8

/-- The number that bytes spell, least significant byte first. -/
def littleEndian : List Byte → Nat
  | [] => 0
  | b :: bs => b.toNat + 256 * littleEndian bs

/-- The command that a byte list spells: 16 bytes, least significant first, decoded as a word. -/
def decodeBytes (bs : List Byte) : Except DecodeError Instr :=
  if bs.length = 16 then decode (BitVec.ofNat 128 (littleEndian bs)) else .error .notSixteenBytes

/-- The word of a table row's instruction: the low `nbits` bits of `w`, every bit above them zero. -/
def tableWord (nbits w : Nat) : CmdWord := BitVec.ofNat 128 (w % 2 ^ nbits)

/-- What the decoder reads from an instruction whose bits are `w`, laid out as a transport carries it (R62). -/
def decodeTableWord (nbits w : Nat) : Option Instr :=
  (decodeBytes (bytesOfWord (tableWord nbits w))).toOption

end Sys2Proof
end

