-- ==== Sys2Proof/Config.lean ====
section
/-! DEFINITION. What is fixed when the block is constructed: its timing templates and capacities (`spec/00_scope.md` R7; `spec/10_state.md` R30, R38), and the host's names. The remaining OPEN parameters stand in `Machine/Environment.lean`. -/

namespace Sys2Proof

/-- The timing template of one slot (R30). -/
structure Template where
  /-- `SHORT`: nominal short pulse width, in microseconds. -/
  short : Dur
  /-- `LONG`: nominal long pulse width, in microseconds. -/
  long : Dur
  /-- `TOL`: the exclusive match bound `t`, in microseconds (R110). -/
  tol : Dur
  /-- `K`: the header multiplier. -/
  k : BitVec 8
  /-- `MINB`: the smallest bit count that is reported. -/
  minb : Count
  deriving DecidableEq, Repr

/-- The parameters of the block (R7, R38). They are data, so that a statement about every state holds for every value of the OPEN parameters. -/
structure Config where
  /-- `TPL[p]`, slot 0 first. -/
  templates : List Template
  /-- `ENC_CAP`: the capacity of the encoder pulse buffer, in entries. -/
  encCap : Nat
  deriving DecidableEq, Repr

/-- `N_DEC`: the number of decoder slots, one per template (R7, R264). -/
def Config.nDec (c : Config) : Nat := c.templates.length

/-- The host's parameters: `NAME[p]` and `NAME_MAX` (R7, R32, R243). The block never sees them. -/
structure HostConfig where
  /-- `NAME[p]`, slot 0 first. -/
  names : List Text
  /-- `NAME_MAX`: the longest name. -/
  nameMax : Nat
  deriving DecidableEq, Repr

/-- Template A of `spec/95_test_vectors.md`, the template of the source's own scenario. -/
def Template.templateA : Template := ⟨700, 1400, 200, 36, 12⟩

/-- The configuration of the spec's programs P1, P2 and P6: `N_DEC = 1`, slot 0 template A, `ENC_CAP = 26`. DESIGN CHOICE (log entry 1, unsafe for a statement about `State.reset` alone): `State.reset` is the block built with it. -/
def Config.ofPrograms : Config := ⟨[Template.templateA], 26⟩

end Sys2Proof
end

