-- ==== Sys2Proof/Machine/State.lean ====
section
/-! DEFINITION. The state of the block (`spec/10_state.md` R20 to R38), the environment side of its three ports (R37), the reasons a run can stop, and the state after reset (`spec/70_reset_and_hazards.md` R340). -/

namespace Sys2Proof.Machine

/-- The four decoder states (R22). All four codes are used, none is reserved. -/
inductive DecState where
  /-- code 0, waiting for a header -/
  | idle
  /-- code 1, header seen, waiting for the start bit -/
  | hdr
  /-- code 2, waiting for the low half of a symbol or an end-of-frame -/
  | awl
  /-- code 3, waiting for the high half of a symbol -/
  | aw2
  deriving DecidableEq, Repr

/-- The registers of one decoder slot (R21). -/
structure SlotRegs where
  /-- `ST[p]` -/
  st : DecState
  /-- `PEND[p]`: the low half of a symbol that waits for its high half -/
  pend : Dur
  /-- `BUFV[p]`: the value of the code buffer -/
  bufv : Code
  /-- `BUFN[p]`: the bit count of the code buffer -/
  bufn : Count
  /-- `LASTV[p]`: the value of the last-found code -/
  lastv : Code
  /-- `LASTN[p]`: the bit count of the last-found code -/
  lastn : Count
  /-- `LASTOK[p]`: set once a last-found code has been written -/
  lastok : Bool
  deriving DecidableEq, Repr

/-- Every register of a slot at its reset value (R21, R340). -/
def SlotRegs.reset : SlotRegs := ⟨.idle, 0, 0, 0, 0, 0, false⟩

/-- An entry of the encoder buffer at its reset value (R33, R340). -/
def emptyEntry : Pulse := ⟨.low, 0⟩

/-- The architectural state of the block: the slots' registers and the encoder (R20, R21, R33). -/
structure Block where
  /-- the registers of slot `p`, slot 0 first -/
  slots : List SlotRegs
  /-- `ENC_BUF[0 .. ENC_CAP-1]` -/
  encBuf : List Pulse
  /-- `ENC_LEN` -/
  encLen : Nat
  deriving DecidableEq, Repr

/-- What an event tells (R310). -/
inductive EventKind where
  /-- KIND 0, a code was found at a validated end-of-frame (R133) -/
  | found
  /-- KIND 1, a 65th bit was refused (R135) -/
  | overflow
  deriving DecidableEq, Repr

/-- An event record (R310). -/
structure Event where
  kind : EventKind
  slot : SlotNo
  value : Code
  nbits : Count
  deriving DecidableEq, Repr

/-- The status codes of a response (R301). Codes 6 to 255 are never returned. -/
inductive Status where
  | ok
  | illegal
  | badSlot
  | badNb
  | encOverflow
  | badIndex
  deriving DecidableEq, Repr

/-- The fields that come with a status (R89). -/
inductive Payload where
  /-- no field -/
  | empty
  /-- ENCODE with OK, and READ_ENC with BAD_INDEX -/
  | len (len : Nat)
  /-- READ_ENC with OK -/
  | entry (len : Nat) (lvl : Level) (dur : Dur)
  /-- REVERSE -/
  | res (v : Code)
  /-- READ_LAST -/
  | last (ok : Bool) (n : Count) (v : Code)
  /-- READ_STATE -/
  | regs (st : BitVec 2) (pend : Dur) (bufn : Count) (bufv : Code)
  /-- READ_TEMPLATE -/
  | template (short long tol : Dur) (k : BitVec 8) (minb : Count)
  deriving DecidableEq, Repr

/-- A response record (R89, R300). -/
structure Response where
  status : Status
  payload : Payload
  deriving DecidableEq, Repr

/-- One record the host receives: on the event port or on the response port (R37, R311). -/
inductive PortRecord where
  | event (e : Event)
  | response (r : Response)
  deriving DecidableEq, Repr

/-- How the event sink answers one event (R311, R314, R351). -/
inductive SinkReply where
  /-- it accepts the event -/
  | accept
  /-- it never accepts it (R311) -/
  | never
  /-- it issues a command and waits for it before it accepts the event (R351) -/
  | reenter
  deriving DecidableEq, Repr

/-- The state of a run: the block, its parameters, and the environment side of its ports. The block's ports hold no state of their own (R37), so the last three fields are the model's (log entries 2, 4 and 5). -/
structure State where
  /-- the parameters fixed at construction (R38); no step writes them -/
  cfg : Config
  /-- the architectural state (R20) -/
  block : Block
  /-- command port: the words the host goes on to issue, the next one first (R69, R80) -/
  cmds : List CmdWord
  /-- event port: how the sink answers the coming events; once the list is used up it accepts every event -/
  sink : List SinkReply
  /-- event and response ports: what the host has received, oldest first (R71, R311) -/
  trace : List PortRecord
  deriving DecidableEq, Repr

/-- Why a run has no next step. -/
inductive Fault where
  /-- Raised by the delivery of an event to a sink that never accepts it: the raising command never completes (R311). Safe: the spec's run is stuck there too. -/
  | sinkNeverAccepts
  /-- Raised by the delivery of an event to a sink that issues a command and waits for it: a deadlock (R351). Safe: the spec's run is stuck there too. -/
  | reentrantDeadlock
  deriving DecidableEq, Repr

/-- Why the model gives no meaning. -/
inductive Refusal where
  /-- Raised by an arm of exec whose instruction has no meaning yet. Safe. -/
  | notModelled (mnemonic : String)
  /-- Raised by construct and by step for a configuration that is not well-formed: "A model refuses to construct a block with an ill-formed template" (R31, R344). Safe: such a block does not exist. -/
  | illFormedConfiguration
  deriving DecidableEq, Repr

/-- The block of a configuration with every register at its reset value (R340). -/
def Block.reset (c : Config) : Block :=
  ⟨List.replicate c.nDec SlotRegs.reset, List.replicate c.encCap emptyEntry, 0⟩

/-- The machine of a configuration right after power-on reset: no pending event, no partial command, waiting for its first command (R340, R341). -/
def State.powerOn (c : Config) : State := ⟨c, Block.reset c, [], [], []⟩

/-- The machine right after reset, built with the configuration of the spec's programs (log entry 1). -/
def State.reset : State := State.powerOn Config.ofPrograms

end Sys2Proof.Machine
end

