-- ==== Sys2Proof/Machine/Flags.lean ====
section
/-! DEFINITION. The numeric codes a host sees, and the one flag-like register. The block has no condition codes and no status register (`spec/10_state.md` R35): each command reports its outcome in its response, and the only flag-like state is `LASTOK[p]` (R21, R26). -/

namespace Sys2Proof.Machine

/-- The 2-bit code of a decoder state (R22). -/
def DecState.code : DecState → BitVec 2
  | .idle => 0
  | .hdr => 1
  | .awl => 2
  | .aw2 => 3

/-- The 8-bit code of a status (R301). -/
def Status.code : Status → BitVec 8
  | .ok => 0
  | .illegal => 1
  | .badSlot => 2
  | .badNb => 3
  | .encOverflow => 4
  | .badIndex => 5

/-- KIND of an event (R310). -/
def EventKind.code : EventKind → Nat
  | .found => 0
  | .overflow => 1

/-- Write the last-found code: `LASTV`, `LASTN` and `LASTOK` together (R26). -/
def SlotRegs.setLast (r : SlotRegs) (v : Code) (n : Count) : SlotRegs :=
  { r with lastv := v, lastn := n, lastok := true }

end Sys2Proof.Machine
end

