-- ==== Sys2Proof/WellFormed.lean ====
section
/-! DEFINITION. When a template and a configuration are well-formed (`spec/10_state.md` R31, `spec/00_scope.md` R7), when a command's operands lie in range for a configuration (`spec/30_encoding.md` R87, checks 3 and 4), and what the model asks of the host's names. -/

namespace Sys2Proof

/-- A template is well-formed (R31). `K ≤ 255` holds by its width. -/
def Template.wf (t : Template) : Bool :=
  decide (1 ≤ t.k.toNat ∧ t.minb.toNat ≤ maxBits ∧ t.short.toNat * t.k.toNat ≤ 2 ^ 32 - 1)

/-- A configuration is well-formed: `1 ≤ N_DEC ≤ 256`, `ENC_CAP ≥ 2` and every template is well-formed (R7, R31). -/
def Config.wf (c : Config) : Bool :=
  decide (1 ≤ c.nDec ∧ c.nDec ≤ 256 ∧ 2 ≤ c.encCap ∧ ∀ t ∈ c.templates, t.wf = true)

/-- The SLOT operand of a command, for the opcodes that use it (R83). -/
def Instr.slotOperand : Instr → Option SlotNo
  | .pulse p _ _ => some p
  | .pulseAll _ _ => none
  | .reset p => some p
  | .resetAll => none
  | .encode p _ _ => some p
  | .readEnc _ => none
  | .reverse _ _ => none
  | .loadLast p _ _ => some p
  | .readLast p => some p
  | .readState p => some p
  | .readTemplate p => some p

/-- The NB operand of a command, for the opcodes that use it (R83). -/
def Instr.countOperand : Instr → Option Count
  | .pulse _ _ _ => none
  | .pulseAll _ _ => none
  | .reset _ => none
  | .resetAll => none
  | .encode _ n _ => some n
  | .readEnc _ => none
  | .reverse n _ => some n
  | .loadLast _ n _ => some n
  | .readLast _ => none
  | .readState _ => none
  | .readTemplate _ => none

/-- The operands of a command lie in range for a configuration: its slot exists and its bit count is at most 64 (R87, checks 3 and 4). A command that is not so is still a command: the block answers BAD_SLOT or BAD_NB. -/
def Instr.wf (c : Config) (i : Instr) : Bool :=
  (match i.slotOperand with
    | some p => decide (p.toNat < c.nDec)
    | none => true) &&
  (match i.countOperand with
    | some n => decide (n.toNat ≤ maxBits)
    | none => true)

/-- The host's names fit a configuration: one per slot, none longer than `NAME_MAX` (R32, R243), no two equal and none with a line feed in it. The last two are DEDUCED from R32, "must round-trip exactly through save/load", and R247 (log entry 10, safe). -/
def HostConfig.wf (h : HostConfig) (c : Config) : Bool :=
  decide (h.names.length = c.nDec ∧ (∀ n ∈ h.names, n.length ≤ h.nameMax) ∧ h.names.Nodup ∧ ∀ n ∈ h.names, '\n' ∉ n)

end Sys2Proof
end

