-- ==== Sys2Proof/Machine/Ops.lean ====
section
/-! DEFINITION. The named operations every meaning is written over: the register accessors (`spec/00_scope.md` R10, `spec/20_memory.md` R60, R61), the response of a command (`spec/60_exceptions.md` R300), the delivery of its events (R311), and the construction of a block (`spec/10_state.md` R31, `spec/70_reset_and_hazards.md` R344). The block has no traps (R306): a rejected command completes with a status, and that is the one shared operation `reject`. -/

namespace Sys2Proof.Machine

/-- The outcome of a command. -/
abbrev Result := Host.Outcome State Fault Refusal

/-! ### Registers -/

/-- `TPL[p]` (R30). A slot number that does not exist reads as the all-zero template; no command reaches one (log entry 7). -/
def State.tpl (s : State) (p : Nat) : Template := s.cfg.templates.getD p ⟨0, 0, 0, 0, 0⟩

/-- The registers of slot `p` (R21). A list too short reads as reset; no run reaches one (log entry 7). -/
def State.reg (s : State) (p : Nat) : SlotRegs := s.block.slots.getD p SlotRegs.reset

/-- Write the registers of slot `p` (R10). -/
def State.setReg (s : State) (p : Nat) (r : SlotRegs) : State :=
  { s with block.slots := s.block.slots.set p r }

/-- Write the registers of every slot (R260, R262). -/
def State.setRegs (s : State) (rs : List SlotRegs) : State := { s with block.slots := rs }

/-- `ENC_BUF[i]` (R61). A list too short reads as reset; no run reaches one (log entry 7). -/
def State.encEntry (s : State) (i : Nat) : Pulse := s.block.encBuf.getD i emptyEntry

/-- Write whole entries from index 0 on; the entries after them keep their contents (R191, R194). -/
def State.writeEnc (s : State) (ps : List Pulse) : State :=
  { s with block.encBuf := ps ++ s.block.encBuf.drop ps.length, block.encLen := ps.length }

/-! ### Ports -/

/-- Put a record on the host's trace. -/
def State.emit (s : State) (r : PortRecord) : State := { s with trace := s.trace ++ [r] }

/-- `respond Status(code) {fields}`: end the command with a response record (R10, R300). -/
def respond (st : Status) (f : Payload) (s : State) : Result := .next (s.emit (.response ⟨st, f⟩))

/-- `reject Status(code)`: end the command with a status; no state of the block is changed (R10, R302). -/
def reject (st : Status) (s : State) : Result := respond st .empty s

/-- Hand events to the sink, in the order raised, and wait until it has accepted each (R311, R314). A sink that never accepts, or that re-enters, leaves the run without a next step (R311, R351). -/
def deliver : List Event → State → Result
  | [], s => .next s
  | e :: es, s =>
    match s.sink with
    | [] => deliver es (s.emit (.event e))
    | .accept :: rest => deliver es ({ s with sink := rest }.emit (.event e))
    | .never :: _ => .fault .sinkNeverAccepts
    | .reenter :: _ => .fault .reentrantDeadlock

/-- Deliver a command's events, then respond OK with no field: events come before the response (R71, R311). -/
def finish (es : List Event) (s : State) : Result :=
  match deliver es s with
  | .next s' => respond .ok .empty s'
  | .fault f => .fault f
  | .refused r => .refused r

/-- The sink meets R314: it accepts every event. -/
def State.sinkAccepts (s : State) : Prop := ∀ x ∈ s.sink, x = SinkReply.accept

/-! ### Construction and power-on -/

/-- Construct a block and apply power-on reset (R344, steps 1 and 2). An ill-formed configuration is refused (R31). -/
def construct (c : Config) : Result :=
  if c.wf then .next (State.powerOn c) else .refused .illFormedConfiguration

/-- Power-on reset of a running block: every register takes its reset value, the configuration stays, no partial command is left (R340, R341). What the host goes on to issue and what it has received are its own. -/
def State.powerOnReset (s : State) : State := { s with block := Block.reset s.cfg }

end Sys2Proof.Machine
end

