-- ==== Sys2Proof/Machine/Operands.lean ====
section
/-! DEFINITION. The range checks on operands, in the fixed order of `spec/30_encoding.md` R87 (checks 3 and 4), and operand extension (R84). -/

namespace Sys2Proof.Machine

/-- Check 3: a command that uses SLOT is rejected with BAD_SLOT unless `p < N_DEC`. -/
def withSlot (p : SlotNo) (s : State) (k : Result) : Result :=
  if p.toNat < s.cfg.nDec then k else reject .badSlot s

/-- Check 4: a command that uses NB is rejected with BAD_NB unless `n ≤ 64`. -/
def withCount (n : Count) (s : State) (k : Result) : Result :=
  if n.toNat ≤ maxBits then k else reject .badNb s

/-- The key operand of LOAD_LAST, `zext_64(KEY)` (R84). -/
def keyValue (key : BitVec 32) : Code := key.setWidth 64

end Sys2Proof.Machine
end

