-- ==== Sys2Proof/Machine/Access.lean ====
section
/-! DEFINITION. Register access: READ_STATE and READ_TEMPLATE (`spec/46_register_access.md` R280, R281). -/

namespace Sys2Proof.Machine

/-- READ_STATE: read the decoder registers of a slot (R280). -/
def execReadState (p : SlotNo) (s : State) : Result :=
  withSlot p s <|
    let r := s.reg p.toNat
    respond .ok (.regs r.st.code r.pend r.bufn r.bufv) s

/-- READ_TEMPLATE: read the timing template of a slot (R281). -/
def execReadTemplate (p : SlotNo) (s : State) : Result :=
  withSlot p s <|
    let t := s.tpl p.toNat
    respond .ok (.template t.short t.long t.tol t.k t.minb) s

end Sys2Proof.Machine
end

