-- ==== Sys2Proof/Machine/Accumulator.lean ====
section
/-! DEFINITION. The bit accumulator and the bit reversal (`spec/42_accumulator.md` R170 to R176). -/

namespace Sys2Proof.Machine

/-- Clear: the code buffer becomes empty (R170). -/
def SlotRegs.clear (r : SlotRegs) : SlotRegs := { r with bufv := 0, bufn := 0 }

/-- The code buffer with one bit shifted in from the right (R171). -/
def SlotRegs.shiftIn (r : SlotRegs) (b : Bool) : SlotRegs :=
  { r with bufv := (r.bufv <<< 1) ||| (BitVec.ofBool b).setWidth 64, bufn := r.bufn + 1 }

/-- Append: it fails, and writes nothing, when the buffer holds 64 bits (R171). -/
def SlotRegs.append (r : SlotRegs) (b : Bool) : Option SlotRegs :=
  if r.bufn = 64 then none else some (r.shiftIn b)

/-- `reverse_bits(v, n)`: the sum over `i < n` of `v[i] * 2^(n-1-i)` (R174). -/
def reverseBits (v : Code) (n : Nat) : Code :=
  BitVec.ofNat 64 ((List.range n).map fun i => (v.getLsbD i).toNat * 2 ^ (n - 1 - i)).sum

end Sys2Proof.Machine
end

