-- ==== Sys2Proof/Machine/Classifier.lean ====
section
/-! DEFINITION. The pulse-duration classifier (`spec/40_classifier.md` R110 to R119): pure functions of their arguments and of one template, exact over the natural numbers (`spec/00_scope.md` R9). -/

namespace Sys2Proof.Machine

/-- `|d - w|` over the natural numbers (R9). -/
def absDiff (d w : Nat) : Nat := if w ≤ d then d - w else w - d

/-- `match(d, w, t)`: strict (R110). -/
def matchDur (d w t : Nat) : Bool := decide (absDiff d w < t)

/-- The header class (R113): nominal width and tolerance are both scaled by `K`. -/
def isHeader (t : Template) (d : Dur) : Bool :=
  matchDur d.toNat (t.short.toNat * t.k.toNat) (t.tol.toNat * t.k.toNat)

/-- The start-bit class (R114). -/
def isStart (t : Template) (d : Dur) : Bool := matchDur d.toNat t.short.toNat t.tol.toNat

/-- The end-of-frame class (R115): a plain threshold. -/
def isEOF (t : Template) (d : Dur) : Bool := decide (t.short.toNat * eofMult ≤ d.toNat)

/-- The bit-symbol class of a low half `a` and a high half `b` (R116, R117): the bit-0 shape is tested first. `some false` is bit 0, `some true` is bit 1, `none` is NONE. -/
def sym (t : Template) (a b : Dur) : Option Bool :=
  if matchDur a.toNat t.short.toNat t.tol.toNat && matchDur b.toNat t.long.toNat t.tol.toNat then some false
  else if matchDur a.toNat t.long.toNat t.tol.toNat && matchDur b.toNat t.short.toNat t.tol.toNat then some true
  else none

end Sys2Proof.Machine
end

