-- ==== Sys2Proof/Machine/Decoder.lean ====
section
/-! DEFINITION. The decoder state machine of a slot and the commands PULSE and RESET (`spec/41_decoder.md` R130 to R146). -/

namespace Sys2Proof.Machine

/-- The slot with another decoder state. -/
def SlotRegs.goto (r : SlotRegs) (st : DecState) : SlotRegs := { r with st := st }

/-- A FOUND event of slot `p` with the code buffer's contents (R144, R310). -/
def foundEvent (p : SlotNo) (r : SlotRegs) : Event := ⟨.found, p, r.bufv, r.bufn⟩

/-- An OVERFLOW event of slot `p`: `VALUE = BUFV[p]`, `NBITS = 64` (R135, R310). -/
def overflowEvent (p : SlotNo) (r : SlotRegs) : Event := ⟨.overflow, p, r.bufv, 64⟩

/-- `Step` in state IDLE (R131). -/
def stepIdle (t : Template) (lvl : Level) (d : Dur) (r : SlotRegs) : SlotRegs × Option Event :=
  match lvl with
  | .low => if isHeader t d then (r.goto .hdr, none) else (r, none)
  | .high => (r, none)

/-- `Step` in state HDR (R132). -/
def stepHdr (t : Template) (lvl : Level) (d : Dur) (r : SlotRegs) : SlotRegs × Option Event :=
  match lvl with
  | .low => (r, none)
  | .high => if isStart t d then (r.clear.goto .awl, none) else (r.goto .idle, none)

/-- `Step` in state AWL (R133, R134, R139). -/
def stepAwl (t : Template) (p : SlotNo) (lvl : Level) (d : Dur) (r : SlotRegs) : SlotRegs × Option Event :=
  match lvl with
  | .high => (r.goto .idle, none)
  | .low =>
    if isEOF t d then
      if t.minb.toNat ≤ r.bufn.toNat then ((r.setLast r.bufv r.bufn).goto .hdr, some (foundEvent p r))
      else (r.goto .hdr, none)
    else ({ r with pend := d }.goto .aw2, none)

/-- `Step` in state AW2 (R135). -/
def stepAw2 (t : Template) (p : SlotNo) (lvl : Level) (d : Dur) (r : SlotRegs) : SlotRegs × Option Event :=
  match lvl with
  | .low => (r.goto .idle, none)
  | .high =>
    match sym t r.pend d with
    | none => (r.goto .idle, none)
    | some b =>
      match r.append b with
      | none => (r.goto .idle, some (overflowEvent p r))
      | some r' => (r'.goto .awl, none)

/-- `Step(p, level, d)`: one transition of one slot, and the event it raises (R131 to R136). -/
def stepSlot (t : Template) (p : SlotNo) (lvl : Level) (d : Dur) (r : SlotRegs) : SlotRegs × Option Event :=
  match r.st with
  | .idle => stepIdle t lvl d r
  | .hdr => stepHdr t lvl d r
  | .awl => stepAwl t p lvl d r
  | .aw2 => stepAw2 t p lvl d r

/-- PULSE: feed one pulse to one slot (R130). -/
def execPulse (p : SlotNo) (lvl : Level) (d : Dur) (s : State) : Result :=
  withSlot p s <|
    let out := stepSlot (s.tpl p.toNat) p lvl d (s.reg p.toNat)
    finish out.2.toList (s.setReg p.toNat out.1)

/-- RESET: abort the decoder of one slot; only `ST[p]` is written (R137). -/
def execReset (p : SlotNo) (s : State) : Result :=
  withSlot p s <| respond .ok .empty (s.setReg p.toNat ((s.reg p.toNat).goto .idle))

end Sys2Proof.Machine
end

