-- ==== Sys2Proof/Machine/Broadcast.lean ====
section
/-! DEFINITION. The protocol-set dispatcher: PULSE_ALL and RESET_ALL (`spec/45_dispatcher.md` R260 to R265). -/

namespace Sys2Proof.Machine

/-- Step the slots `p, p+1, ...` in ascending order, each with its own template, and gather their events in that order (R70, R260). -/
def stepSlots (lvl : Level) (d : Dur) : Nat → List Template → List SlotRegs → List SlotRegs × List Event
  | p, t :: ts, r :: rs =>
    let one := stepSlot t (BitVec.ofNat 8 p) lvl d r
    let more := stepSlots lvl d (p + 1) ts rs
    (one.1 :: more.1, one.2.toList ++ more.2)
  | _, [], rs => (rs, [])
  | _, _, [] => ([], [])

/-- PULSE_ALL: feed one pulse to every slot (R260). -/
def execPulseAll (lvl : Level) (d : Dur) (s : State) : Result :=
  let out := stepSlots lvl d 0 s.cfg.templates s.block.slots
  finish out.2 (s.setRegs out.1)

/-- RESET_ALL: abort every decoder; only `ST` is written (R262). -/
def execResetAll (s : State) : Result :=
  respond .ok .empty (s.setRegs (s.block.slots.map fun r => r.goto .idle))

end Sys2Proof.Machine
end

