-- ==== Sys2Proof/Machine/Encoder.lean ====
section
/-! DEFINITION. The encoder: ENCODE and READ_ENC (`spec/43_encoder.md` R191 to R199). -/

namespace Sys2Proof.Machine

/-- `SHORT * K`, the header's width; it fits `DUR_W` bits for a well-formed template (R31, R192). -/
def headerDur (t : Template) : Dur := BitVec.ofNat 32 (t.short.toNat * t.k.toNat)

/-- The two pulses of one bit: (low long, high short) for 1, (low short, high long) for 0 (R191). -/
def symbolPulses (t : Template) (b : Bool) : List Pulse :=
  if b then [⟨.low, t.long⟩, ⟨.high, t.short⟩] else [⟨.low, t.short⟩, ⟨.high, t.long⟩]

/-- The pulses of `v` over `n` bits: header, start bit, then the bits `v[n-1]` down to `v[0]` (R191). -/
def encodePulses (t : Template) (v : Code) (n : Nat) : List Pulse :=
  [⟨.low, headerDur t⟩, ⟨.high, t.short⟩] ++
    (List.range n).flatMap fun j => symbolPulses t (v.getLsbD (n - 1 - j))

/-- ENCODE: serialize `v` over `n` bits with the template of slot `p` (R191). -/
def execEncode (p : SlotNo) (n : Count) (v : Code) (s : State) : Result :=
  withSlot p s <| withCount n s <|
    if s.cfg.encCap < 2 + 2 * n.toNat then reject .encOverflow s
    else respond .ok (.len (2 + 2 * n.toNat)) (s.writeEnc (encodePulses (s.tpl p.toNat) v n.toNat))

/-- READ_ENC: read one entry of the encoder output (R198). -/
def execReadEnc (i : BitVec 32) (s : State) : Result :=
  if s.block.encLen ≤ i.toNat then respond .badIndex (.len s.block.encLen) s
  else
    let e := s.encEntry i.toNat
    respond .ok (.entry s.block.encLen e.lvl e.dur) s

end Sys2Proof.Machine
end

