-- ==== Sys2Proof/Machine/LastFound.lean ====
section
/-! DEFINITION. The last-found registers: LOAD_LAST and READ_LAST (`spec/44_last_found_and_text.md` R222 to R224). -/

namespace Sys2Proof.Machine

/-- LOAD_LAST: install a code in the last-found registers; no event, no comparison with `MINB` (R222, R223). -/
def execLoadLast (p : SlotNo) (n : Count) (key : BitVec 32) (s : State) : Result :=
  withSlot p s <| withCount n s <|
    respond .ok .empty (s.setReg p.toNat ((s.reg p.toNat).setLast (keyValue key) n))

/-- READ_LAST: read the last-found code of a slot (R224). -/
def execReadLast (p : SlotNo) (s : State) : Result :=
  withSlot p s <|
    let r := s.reg p.toNat
    respond .ok (.last r.lastok r.lastn r.lastv) s

end Sys2Proof.Machine
end

