-- ==== Sys2Proof/Machine/Reversal.lean ====
section
/-! DEFINITION. The REVERSE command (`spec/42_accumulator.md` R173). -/

namespace Sys2Proof.Machine

/-- REVERSE: compute `reverse_bits(v, n)`; no state is written (R173). -/
def execReverse (n : Count) (v : Code) (s : State) : Result :=
  withCount n s <| respond .ok (.res (reverseBits v n.toNat)) s

end Sys2Proof.Machine
end

