-- ==== Sys2Proof/Machine/Dispatch.lean ====
section
/-! DEFINITION. One arm per command of `spec/opcode_table.json`, each a call of its meaning. -/

namespace Sys2Proof.Machine

def exec (i : Instr) (s : State) : Host.Outcome State Fault Refusal :=
  match i with
  | .pulse p lvl d => Sys2Proof.Machine.execPulse p lvl d s
  | .pulseAll lvl d => Sys2Proof.Machine.execPulseAll lvl d s
  | .reset p => Sys2Proof.Machine.execReset p s
  | .resetAll => Sys2Proof.Machine.execResetAll s
  | .encode p n v => Sys2Proof.Machine.execEncode p n v s
  | .readEnc idx => Sys2Proof.Machine.execReadEnc idx s
  | .reverse n v => Sys2Proof.Machine.execReverse n v s
  | .loadLast p n key => Sys2Proof.Machine.execLoadLast p n key s
  | .readLast p => Sys2Proof.Machine.execReadLast p s
  | .readState p => Sys2Proof.Machine.execReadState p s
  | .readTemplate p => Sys2Proof.Machine.execReadTemplate p s

end Sys2Proof.Machine
end

