-- ==== Sys2Proof/Machine/Port.lean ====
section
/-! DEFINITION. The command port: how one command is accepted, decoded, run and answered (`spec/30_encoding.md` R80, R87; `spec/20_memory.md` R69; `spec/70_reset_and_hazards.md` R341, R350), and how a word is placed where the next step takes it. -/

namespace Sys2Proof.Machine

/-- Run one accepted command word: the command it decodes to, or the status ILLEGAL (R85 to R88). -/
def runWord (w : CmdWord) (s : State) : Result :=
  match decode w with
  | .ok i => exec i s
  | .error _ => reject .illegal s

/-- Accept the next command of the host and run it to completion (R11, R69, R80). With no command presented the block waits and keeps all its state (R325, R341; log entry 3). -/
def acceptCommand (s : State) : Result :=
  match s.cmds with
  | [] => .next s
  | w :: rest => runWord w { s with cmds := rest }

/-- One step of the block. An ill-formed configuration is refused (R31, R344; log entry 6). -/
def stepPort (s : State) : Result :=
  if s.cfg.wf then acceptCommand s else .refused .illFormedConfiguration

/-- Present a word as the next command, before those the host already has waiting. -/
def State.present (s : State) (w : CmdWord) : State := { s with cmds := w :: s.cmds }

end Sys2Proof.Machine
end

