-- ==== Sys2Proof/Machine/Step.lean ====
section
/-! DEFINITION. One step of the machine, and a word placed where that step takes its command. The block fetches nothing (`spec/20_memory.md` R74): a program is the list of commands the host issues. -/

namespace Sys2Proof.Machine

/-- One step: one command run to completion, or waiting when the host presents none. -/
def step (s : State) : Host.Outcome State Fault Refusal := stepPort s

/-- `s` with the table word `w` presented as the next command. -/
def State.withFetchWord (s : State) (nbits w : Nat) : State := s.present (tableWord nbits w)

end Sys2Proof.Machine
end

