-- ==== Sys2Proof/Machine/HostText.lean ====
section
/-! DEFINITION. The host's text codec (`spec/44_last_found_and_text.md` R240 to R256, `spec/20_memory.md` R63): display string, save record and load. It runs outside the block (`spec/00_scope.md` R5); its load result enters the block as one LOAD_LAST. -/

namespace Sys2Proof.Machine

/-- What a host operation reports to its caller (R247, R248, R250). -/
inductive HostError where
  /-- MalformedSaveRecord: a line does not match its pattern (R250 to R252) -/
  | malformedSaveRecord
  /-- no slot has the name of the record, or the slot has no name (R247) -/
  | unknownProtocol
  /-- READ_LAST answered `OK = 0`: there is no code to save (R248) -/
  | nothingToSave
  /-- the response is not one of READ_LAST -/
  | notALastFoundResponse
  deriving DecidableEq, Repr

/-! ### Numbers as text -/

/-- The low 32 bits of a value (R8). -/
def lower32 (v : Code) : BitVec 32 := v.setWidth 32

/-- The upper-case digit of a number below 16 (R241). -/
def digitChar (n : Nat) : Char := Char.ofNat (n + if n < 10 then 48 else 55)

/-- `hex8(x)`: exactly 8 upper-case hexadecimal digits, most significant first (R241). -/
def hex8 (x : BitVec 32) : Text :=
  [7, 6, 5, 4, 3, 2, 1, 0].map fun i => digitChar (x.extractLsb' (4 * i) 4).toNat

/-- Decimal digits of `n`, most significant first; `fuel` bounds their number. -/
def decDigits : Nat → Nat → Text
  | 0, _ => []
  | fuel + 1, n => if n < 10 then [digitChar n] else decDigits fuel (n / 10) ++ [digitChar (n % 10)]

/-- `dec(N)`: decimal, no leading zero, no sign (R242). -/
def dec (n : Count) : Text := decDigits 3 n.toNat

/-- A range of digit characters, as R251 and R252 name them: "`0-9`, `A-F` or `a-f`". -/
structure DigitRange where
  first : Char
  last : Char
  /-- what `first` stands for; each next character stands for one more -/
  value : Nat
  deriving DecidableEq, Repr

/-- The decimal digits (R251). -/
def decRanges : List DigitRange := [⟨'0', '9', 0⟩]

/-- The hexadecimal digits of either case (R252). -/
def hexRanges : List DigitRange := decRanges ++ [⟨'A', 'F', 10⟩, ⟨'a', 'f', 10⟩]

/-- The value of a character by the first range it lies in; none for a character of no range. -/
def digitValue (c : Char) : List DigitRange → Option Nat
  | [] => none
  | r :: rs => if r.first ≤ c ∧ c ≤ r.last then some (r.value + (c.toNat - r.first.toNat)) else digitValue c rs

/-- The number that digits spell in a base, most significant first, after those read so far; none if one is no digit (R63). -/
def readDigits (base : Nat) (ranges : List DigitRange) : Nat → Text → Option Nat
  | acc, [] => some acc
  | acc, c :: cs =>
    match digitValue c ranges with
    | some x => readDigits base ranges (base * acc + x) cs
    | none => none

/-- The rest of a text after a fixed beginning; none if it begins otherwise. -/
def dropLead : Text → Text → Option Text
  | [], t => some t
  | _ :: _, [] => none
  | l :: ls, c :: cs => if l = c then dropLead ls cs else none

/-! ### The fixed words of the formats -/

/-- `"Protocol: "` -/
def protocolLead : Text := ['P', 'r', 'o', 't', 'o', 'c', 'o', 'l', ':', ' ']
/-- `"Bit: "` -/
def bitLead : Text := ['B', 'i', 't', ':', ' ']
/-- `"Key: "` -/
def keyLead : Text := ['K', 'e', 'y', ':', ' ']
/-- `" Bit"` -/
def bitWord : Text := [' ', 'B', 'i', 't']
/-- `" KEY:0x"` -/
def keyField : Text := [' ', 'K', 'E', 'Y', ':', '0', 'x']
/-- `" YEK:0x"` -/
def yekField : Text := [' ', 'Y', 'E', 'K', ':', '0', 'x']
/-- CR LF, codes 0x0D and 0x0A (R240). -/
def crlf : Text := ['\r', '\n']
/-- LF, code 0x0A (R246). -/
def lf : Text := ['\n']

/-! ### Display and save -/

/-- The display string of a code (R240). -/
def displayText (name : Text) (n : Count) (v : Code) : Text :=
  name ++ [' '] ++ dec n ++ bitWord ++ crlf ++
    keyField ++ hex8 (lower32 v) ++ crlf ++
    yekField ++ hex8 (lower32 (reverseBits v n.toNat)) ++ crlf

/-- The save record of a code: three lines, each ended by LF (R245, R246). -/
def saveText (name : Text) (n : Count) (v : Code) : Text :=
  protocolLead ++ name ++ lf ++ bitLead ++ dec n ++ lf ++ keyLead ++ hex8 (lower32 v) ++ lf

/-- `format_display` of slot `p` on what READ_LAST answered (R224, R240, R256). DESIGN CHOICE (log entry 16, unsafe for a statement about `OK = 0`): the spec does not say what display does with `OK = 0`; the string is formed from the `N` and `V` answered. -/
def formatDisplay (h : HostConfig) (p : SlotNo) : Payload → Except HostError Text
  | .last _ n v =>
    match h.names[p.toNat]? with
    | some name => .ok (displayText name n v)
    | none => .error .unknownProtocol
  | _ => .error .notALastFoundResponse

/-- `format_save` of slot `p` on what READ_LAST answered; with `OK = 0` it fails (R224, R245, R248, R256). -/
def formatSave (h : HostConfig) (p : SlotNo) : Payload → Except HostError Text
  | .last ok n v =>
    if ok then
      match h.names[p.toNat]? with
      | some name => .ok (saveText name n v)
      | none => .error .unknownProtocol
    else .error .nothingToSave
  | _ => .error .notALastFoundResponse

/-! ### Load -/

/-- `parseBit(L)` (R251). -/
def parseBit (line : Text) : Option Count :=
  match dropLead bitLead line with
  | none => none
  | some [] => none
  | some (c :: cs) =>
    match readDigits 10 decRanges 0 (c :: cs) with
    | some n => if n ≤ maxBits then some (BitVec.ofNat 7 n) else none
    | none => none

/-- `parseKey(L)` (R252). -/
def parseKey (line : Text) : Option (BitVec 32) :=
  match dropLead keyLead line with
  | none => none
  | some ds =>
    if ds.length = 8 then (readDigits 16 hexRanges 0 ds).map (BitVec.ofNat 32) else none

/-- `load(p, L1, L2)`: the one LOAD_LAST it issues, or MalformedSaveRecord and no command (R250, R253). -/
def loadLines (p : SlotNo) (l1 l2 : Text) : Except HostError Instr :=
  match parseBit l1, parseKey l2 with
  | some n, some key => .ok (.loadLast p n key)
  | _, _ => .error .malformedSaveRecord

/-- The number of the first name equal to `name`, counted from `p`. -/
def slotOfName (name : Text) : Nat → List Text → Option Nat
  | _, [] => none
  | p, x :: xs => if x = name then some p else slotOfName name (p + 1) xs

/-- Choose the slot by the `Protocol:` line (R247). -/
def chooseSlot (h : HostConfig) (line : Text) : Except HostError SlotNo :=
  match dropLead protocolLead line with
  | none => .error .unknownProtocol
  | some name =>
    match slotOfName name 0 h.names with
    | some p => .ok (BitVec.ofNat 8 p)
    | none => .error .unknownProtocol

/-- The lines of a text, each the characters before its LF; none if the last is not ended by LF (R250). -/
def recordLines : Text → Option (List Text)
  | [] => some []
  | c :: cs =>
    if c = '\n' then (recordLines cs).map fun ls => [] :: ls
    else
      match recordLines cs with
      | some (l :: ls) => some ((c :: l) :: ls)
      | _ => none

/-- Load a save record: three lines, the first read by the host to choose the slot (R247, R250). A text of another number of lines is MalformedSaveRecord (log entry 15). -/
def loadRecord (h : HostConfig) (t : Text) : Except HostError Instr :=
  match recordLines t with
  | some [l0, l1, l2] =>
    match chooseSlot h l0 with
    | .ok p => loadLines p l1 l2
    | .error e => .error e
  | _ => .error .malformedSaveRecord

/-- Load a save record into the block: its one LOAD_LAST is presented as the next command; a failure presents none (R250, R253, R255). -/
def hostLoad (h : HostConfig) (t : Text) (s : State) : Except HostError State :=
  match loadRecord h t with
  | .ok i => .ok (s.present (encode i))
  | .error e => .error e

end Sys2Proof.Machine
end

