-- ==== Sys2Proof/Machine/Assembler.lean ====
section
/-! DEFINITION. The spec's assembly syntax and its pseudo-instructions (`spec/30_encoding.md` R90, R91). White space and the treatment of a macro whose duration does not fit DUR are log entry 12; the forms of numbers are log entry 18. -/

namespace Sys2Proof.Machine

/-- The pseudo-instructions (R91). -/
inductive Pseudo where
  | low (p : SlotNo) (d : Dur)
  | high (p : SlotNo) (d : Dur)
  | lowAll (d : Dur)
  | highAll (d : Dur)
  | header (p : SlotNo)
  | sym (p : SlotNo) (b : Bool)
  | eof (p : SlotNo)
  deriving DecidableEq, Repr

/-- A duration that fits DUR; none otherwise. -/
def fitDur (x : Nat) : Option Dur := if x < 2 ^ 32 then some (BitVec.ofNat 32 x) else none

/-- The commands a pseudo-instruction stands for, resolved against the configured template (R91). -/
def Pseudo.expand (c : Config) : Pseudo → Option (List Instr)
  | .low p d => some [.pulse p .low d]
  | .high p d => some [.pulse p .high d]
  | .lowAll d => some [.pulseAll .low d]
  | .highAll d => some [.pulseAll .high d]
  | .header p =>
    match c.templates[p.toNat]? with
    | none => none
    | some t => (fitDur (t.short.toNat * t.k.toNat)).map fun d => [.pulse p .low d, .pulse p .high t.short]
  | .sym p b =>
    match c.templates[p.toNat]? with
    | none => none
    | some t =>
      if b then some [.pulse p .low t.long, .pulse p .high t.short]
      else some [.pulse p .low t.short, .pulse p .high t.long]
  | .eof p =>
    match c.templates[p.toNat]? with
    | none => none
    | some t => (fitDur (t.short.toNat * eofMult)).map fun d => [.pulse p .low d]

/-- Put a finished token, given backwards, before the tokens after it. -/
def flushToken (cur : Text) (more : List Text) : List Text :=
  match cur with
  | [] => more
  | _ :: _ => cur.reverse :: more

/-- The tokens of a line: words and commas; spaces and tabs separate, `;` starts a comment (R90). -/
def tokens : Text → Text → List Text
  | cur, [] => flushToken cur []
  | cur, c :: cs =>
    if c = ';' then flushToken cur []
    else if c = ' ' ∨ c = '\t' then flushToken cur (tokens [] cs)
    else if c = ',' then flushToken cur ([','] :: tokens [] cs)
    else tokens (c :: cur) cs

/-- Operands separated by single commas. -/
def operandList : List Text → Option (List Text)
  | [] => some []
  | [x] => if x = [','] then none else some [x]
  | x :: y :: rest =>
    if x = [','] ∨ y ≠ [','] then none
    else
      match operandList rest with
      | some (z :: zs) => some (x :: z :: zs)
      | _ => none

/-- The binary digits of a `0b` number (log entry 18). -/
def binRanges : List DigitRange := [⟨'0', '1', 0⟩]

/-- The number that the digits after a prefix spell: at least one digit, and a `_` after the first one only groups (log entry 18). -/
def readGrouped (base : Nat) (ranges : List DigitRange) : Text → Option Nat
  | [] => none
  | d :: ds => readDigits base ranges 0 (d :: ds.filter fun c => c ≠ '_')

/-- A number: decimal, or `0x` and hexadecimal (R90). DESIGN CHOICE (log entry 18, safe): R90 names no other form, but the commands of `spec/95_test_vectors.md` also use `0b` numbers and group hexadecimal digits with `_`; both are read, after a prefix only. -/
def readNumber : Text → Option Nat
  | '0' :: 'x' :: ds => readGrouped 16 hexRanges ds
  | '0' :: 'b' :: ds => readGrouped 2 binRanges ds
  | d :: ds => readDigits 10 decRanges 0 (d :: ds)
  | [] => none

/-- A number that fits a field of `w` bits. -/
def readField (w : Nat) (t : Text) : Option (BitVec w) :=
  match readNumber t with
  | some n => if n < 2 ^ w then some (BitVec.ofNat w n) else none
  | none => none

/-- `L` or `H` (R90). -/
def readLevel : Text → Option Level
  | ['L'] => some .low
  | ['H'] => some .high
  | _ => none

/-- One command from its mnemonic and operands (R90). -/
def assembleCommand (m : Text) (ops : List Text) : Option Instr :=
  match ops with
  | [] => if m = "RESET_ALL".toList then some .resetAll else none
  | [a] =>
    if m = "RESET".toList then (readField 8 a).map .reset
    else if m = "READ_ENC".toList then (readField 32 a).map .readEnc
    else if m = "READ_LAST".toList then (readField 8 a).map .readLast
    else if m = "READ_STATE".toList then (readField 8 a).map .readState
    else if m = "READ_TEMPLATE".toList then (readField 8 a).map .readTemplate
    else none
  | [a, b] =>
    if m = "PULSE_ALL".toList then
      match readLevel a, readField 32 b with
      | some l, some d => some (.pulseAll l d)
      | _, _ => none
    else if m = "REVERSE".toList then
      match readField 7 a, readField 64 b with
      | some n, some v => some (.reverse n v)
      | _, _ => none
    else none
  | [a, b, c] =>
    if m = "PULSE".toList then
      match readField 8 a, readLevel b, readField 32 c with
      | some p, some l, some d => some (.pulse p l d)
      | _, _, _ => none
    else if m = "ENCODE".toList then
      match readField 8 a, readField 7 b, readField 64 c with
      | some p, some n, some v => some (.encode p n v)
      | _, _, _ => none
    else if m = "LOAD_LAST".toList then
      match readField 8 a, readField 7 b, readField 32 c with
      | some p, some n, some k => some (.loadLast p n k)
      | _, _, _ => none
    else none
  | _ => none

/-- One pseudo-instruction from its name and operands (R91). -/
def assemblePseudo (m : Text) (ops : List Text) : Option Pseudo :=
  match ops with
  | [a] =>
    if m = "LOWALL".toList then (readField 32 a).map .lowAll
    else if m = "HIGHALL".toList then (readField 32 a).map .highAll
    else if m = "HEADER".toList then (readField 8 a).map .header
    else if m = "EOF".toList then (readField 8 a).map .eof
    else none
  | [a, b] =>
    if m = "LOW".toList then
      match readField 8 a, readField 32 b with
      | some p, some d => some (.low p d)
      | _, _ => none
    else if m = "HIGH".toList then
      match readField 8 a, readField 32 b with
      | some p, some d => some (.high p d)
      | _, _ => none
    else if m = "SYM".toList then
      match readField 8 a, readField 1 b with
      | some p, some x => some (.sym p (x = 1))
      | _, _ => none
    else none
  | _ => none

/-- The commands of one line; a blank or comment line has none, and a line of another form is refused (R90, R91). -/
def assembleLine (c : Config) (line : Text) : Option (List Instr) :=
  match tokens [] line with
  | [] => some []
  | m :: rest =>
    match operandList rest with
    | none => none
    | some ops =>
      match assembleCommand m ops with
      | some i => some [i]
      | none =>
        match assemblePseudo m ops with
        | some x => x.expand c
        | none => none

end Sys2Proof.Machine
end

