-- ==== Sys2Proof/Machine/Environment.lean ====
section
/-! DEFINITION. What stands around the block: every OPEN parameter as one argument (`spec/00_scope.md` R7; `spec/10_state.md` R38), the wires of its ports, what the host reads from the event and response ports, the map from an event to its name (R32), and the document's found-code callback (`spec/60_exceptions.md` R310). -/

namespace Sys2Proof.Machine

/-- The OPEN parameters (R7), and the `user_context` the host keeps with its sink (R38). The command wire carries items of type `α`, the response wire items of type `β`; the context has any type `γ`. No state holds them but the block's own, which `State.cfg` holds. -/
structure Params (α β γ : Type) where
  /-- `N_DEC`, `ENC_CAP`, `TPL[p]` -/
  block : Config
  /-- `NAME[p]`, `NAME_MAX` -/
  host : HostConfig
  /-- `DUR_OVERRANGE`: the DUR of an interval that does not fit (R355) -/
  durOverrange : Nat → Dur
  /-- `CMD_TRANSPORT`: the command words that a wire carries, in order (R67) -/
  cmdTransport : List α → List CmdWord
  /-- `RSP_TRANSPORT`: a response record laid out on a wire (R89) -/
  rspTransport : Response → List β
  /-- `PULSE_LATENCY`: the longest time for one pulse, in microseconds; no rule of the block reads it (R360) -/
  pulseLatency : Nat
  /-- the callback's `user_context` (R38, R310) -/
  userContext : γ

/-! ### What the host has received -/

/-- The events on a trace, in the order delivered (R311). -/
def eventsOf (tr : List PortRecord) : List Event :=
  tr.filterMap fun
    | .event e => some e
    | .response _ => none

/-- The responses on a trace, in the order returned (R300). -/
def responsesOf (tr : List PortRecord) : List Response :=
  tr.filterMap fun
    | .event _ => none
    | .response r => some r

/-! ### Names and callbacks -/

/-- The name of the slot that raised an event (R32, R144); none for a slot the host has no name for. -/
def eventName (h : HostConfig) (e : Event) : Option Text := h.names[e.slot.toNat]?

/-- The arguments of the document's found-code callback (R310). -/
structure FoundCallback (γ : Type) where
  /-- `protocol_name` -/
  protocolName : Text
  /-- `code_value` -/
  codeValue : Code
  /-- `bit_count` -/
  bitCount : Count
  /-- `user_context` -/
  userContext : γ
  deriving DecidableEq, Repr

/-- The callback a FOUND event stands for: the host adds the name and its own context. OVERFLOW is not one (R310). -/
def foundCallback {γ : Type} (h : HostConfig) (ctx : γ) (e : Event) : Option (FoundCallback γ) :=
  match e.kind with
  | .found => (eventName h e).map fun name => ⟨name, e.value, e.nbits, ctx⟩
  | .overflow => none

/-- The callbacks of a run, in the order of their events (R141, R311). -/
def Params.callbacks {α β γ : Type} (P : Params α β γ) (s : State) : List (FoundCallback γ) :=
  (eventsOf s.trace).filterMap (foundCallback P.host P.userContext)

/-! ### Wires and the platform -/

/-- Boot (R344): construct the block, apply power-on reset, and present the command words that the wire carries (R67). -/
def Params.boot {α β γ : Type} (P : Params α β γ) (wire : List α) : Result :=
  match construct P.block with
  | .next s => .next { s with cmds := P.cmdTransport wire }
  | .fault f => .fault f
  | .refused r => .refused r

/-- The response wire of a run: its response records, laid out one after another (R89). -/
def Params.responseWire {α β γ : Type} (P : Params α β γ) (s : State) : List β :=
  (responsesOf s.trace).flatMap P.rspTransport

/-- The platform keeps up with a capture: `PULSE_LATENCY` lies below every interval between captured edges (R360). -/
def Params.keepsUp {α β γ : Type} (P : Params α β γ) (intervals : List Nat) : Bool :=
  intervals.all fun us => decide (P.pulseLatency < us)

end Sys2Proof.Machine
end

