-- ==== Sys2Proof/Machine/Session.lean ====
section
/-! DEFINITION. What the host does with the block: a sequence of commands in issue order (`spec/20_memory.md` R69, `spec/70_reset_and_hazards.md` R353), one command per captured pulse, and the capture of an interval into DUR (R355). -/

namespace Sys2Proof.Machine

/-- Run commands one after another; each sees every effect of the ones before it (R69). -/
def runCommands : List Instr → State → Result
  | [], s => .next s
  | i :: is, s =>
    match exec i s with
    | .next s' => runCommands is s'
    | .fault f => .fault f
    | .refused r => .refused r

/-- One PULSE for each pulse, in capture order (R353). -/
def pulseCommands (p : SlotNo) (ps : List Pulse) : List Instr := ps.map fun x => .pulse p x.lvl x.dur

/-- One PULSE_ALL for each pulse, in capture order (R353). -/
def broadcastCommands (ps : List Pulse) : List Instr := ps.map fun x => .pulseAll x.lvl x.dur

/-- One pulse to each slot `0 .. N_DEC-1` in turn (R261). -/
def eachSlotCommands (nDec : Nat) (lvl : Level) (d : Dur) : List Instr :=
  (List.range nDec).map fun p => .pulse (BitVec.ofNat 8 p) lvl d

/-- DUR of a captured interval in microseconds; one that does not fit is mapped by the parameter `DUR_OVERRANGE` (R355, log entry 11). -/
def captureDur (overrange : Nat → Dur) (us : Nat) : Dur :=
  if us < 2 ^ 32 then BitVec.ofNat 32 us else overrange us

/-- A capture source that clamps, R355's own example of `DUR_OVERRANGE`. -/
def clampOverrange : Nat → Dur := fun _ => 0xFFFFFFFF

/-- The commands for one slot of a capture, one PULSE for each interval, in capture order (R353, R355). -/
def captureCommands (overrange : Nat → Dur) (p : SlotNo) (capture : List (Level × Nat)) : List Instr :=
  capture.map fun x => .pulse p x.1 (captureDur overrange x.2)

end Sys2Proof.Machine
end

