-- ==== Sys2Proof/Safety.lean ====
section
/-! DEFINITION. What a good state and a safe run are, in the terms the statements use. -/

namespace Sys2Proof.Machine

/-- The words that R82 and R83 allow, field by field: a defined opcode, and zero in every field that it does not use. -/
def LegalWord (w : CmdWord) : Prop :=
  (w.op = 0x01 ∧ w.nb = 0 ∧ w.rsv = 0 ∧ w.val = 0) ∨
  (w.op = 0x02 ∧ w.slot = 0 ∧ w.nb = 0 ∧ w.rsv = 0 ∧ w.val = 0) ∨
  (w.op = 0x03 ∧ w.lvl = 0 ∧ w.nb = 0 ∧ w.rsv = 0 ∧ w.dur = 0 ∧ w.val = 0) ∨
  (w.op = 0x04 ∧ w.slot = 0 ∧ w.lvl = 0 ∧ w.nb = 0 ∧ w.rsv = 0 ∧ w.dur = 0 ∧ w.val = 0) ∨
  (w.op = 0x05 ∧ w.lvl = 0 ∧ w.rsv = 0 ∧ w.dur = 0) ∨
  (w.op = 0x06 ∧ w.slot = 0 ∧ w.lvl = 0 ∧ w.nb = 0 ∧ w.rsv = 0 ∧ w.val = 0) ∨
  (w.op = 0x07 ∧ w.slot = 0 ∧ w.lvl = 0 ∧ w.rsv = 0 ∧ w.dur = 0) ∨
  (w.op = 0x08 ∧ w.lvl = 0 ∧ w.rsv = 0 ∧ w.dur = 0 ∧ w.valHigh = 0) ∨
  (w.op = 0x09 ∧ w.lvl = 0 ∧ w.nb = 0 ∧ w.rsv = 0 ∧ w.dur = 0 ∧ w.val = 0) ∨
  (w.op = 0x0A ∧ w.lvl = 0 ∧ w.nb = 0 ∧ w.rsv = 0 ∧ w.dur = 0 ∧ w.val = 0) ∨
  (w.op = 0x0B ∧ w.lvl = 0 ∧ w.nb = 0 ∧ w.rsv = 0 ∧ w.dur = 0 ∧ w.val = 0)

end Sys2Proof.Machine

namespace Sys2Proof

/-- The commands that only read: READ_LAST, READ_STATE, READ_TEMPLATE, READ_ENC and REVERSE (R66). -/
def Instr.readsOnly (i : Instr) : Prop :=
  (∃ p, i = .readLast p) ∨ (∃ p, i = .readState p) ∨ (∃ p, i = .readTemplate p) ∨ (∃ k, i = .readEnc k) ∨
    ∃ n v, i = .reverse n v

/-- The commands of the encoder side: ENCODE, READ_ENC and REVERSE (R77). -/
def Instr.encoderSide : Instr → Bool
  | .pulse _ _ _ => false
  | .pulseAll _ _ => false
  | .reset _ => false
  | .resetAll => false
  | .encode _ _ _ => true
  | .readEnc _ => true
  | .reverse _ _ => true
  | .loadLast _ _ _ => false
  | .readLast _ => false
  | .readState _ => false
  | .readTemplate _ => false

end Sys2Proof

namespace Sys2Proof.Machine

/-- Append bits one after another to a code buffer; none once an append fails (R171). -/
def SlotRegs.appendAll (r : SlotRegs) : List Bool → Option SlotRegs
  | [] => some r
  | b :: bs =>
    match r.append b with
    | some r' => r'.appendAll bs
    | none => none

/-- What holds of a slot's registers in every reachable state. -/
structure SlotRegs.Inv (t : Template) (r : SlotRegs) : Prop where
  /-- R23 -/
  bufn_le : r.bufn.toNat ≤ 64
  /-- R24 -/
  bufv_lt : r.bufv.toNat < 2 ^ r.bufn.toNat
  /-- R21 -/
  lastn_le : r.lastn.toNat ≤ 64
  /-- R21: LASTOK is 1 once a last-found code has been written -/
  last_unwritten : r.lastok = false → r.lastv = 0 ∧ r.lastn = 0
  /-- R28: every path into AW2 writes PEND with a pulse below the end-of-frame threshold -/
  pend_lt : r.st = .aw2 → r.pend.toNat < t.short.toNat * eofMult

/-- What holds in every reachable state. -/
structure State.Inv (s : State) : Prop where
  /-- R31, R344 -/
  cfg_wf : s.cfg.wf = true
  /-- R20: one register set per slot -/
  slots_length : s.block.slots.length = s.cfg.nDec
  /-- R33: the buffer has `ENC_CAP` entries -/
  encBuf_length : s.block.encBuf.length = s.cfg.encCap
  /-- R34 -/
  encLen_even : s.block.encLen = 0 ∨ (2 ≤ s.block.encLen ∧ s.block.encLen ≤ s.cfg.encCap ∧ s.block.encLen % 2 = 0)
  /-- R197: the encoded sequence starts low and alternates -/
  enc_alternates : ∀ i, i < s.block.encLen → (s.encEntry i).lvl = if i % 2 = 0 then .low else .high
  /-- R21, R23, R24, R28 of every slot -/
  slots_inv : ∀ p, p < s.cfg.nDec → (s.reg p).Inv (s.tpl p)

/-- The states that a block of configuration `c` can come to, whatever the host issues and however its sink answers. -/
inductive Reachable (c : Config) : State → Prop where
  | start (cmds : List CmdWord) (sink : List SinkReply) :
      Reachable c { State.powerOn c with cmds := cmds, sink := sink }
  | next (s s' : State) : Reachable c s → step s = .next s' → Reachable c s'

/-- A run that never stops: after any number of steps there is a state. -/
def Safe (s : State) : Prop := ∀ k, ∃ s', Host.Core.run Sys2Proof.core k s = .next s'

end Sys2Proof.Machine
end

