-- ==== Sys2Proof/Certificates/Slice0/Obligations.lean ====
section
/-! DEFINITION. The statements for the provers. Each docstring says which rule of the spec, or which part of one, the statement formalises. -/

open Sys2Proof Sys2Proof.Machine

/-! ### Command words -/

/-- Decode and encode agree, for every command with every operand value (30_encoding.md, the fields of R81 and the map of R82). -/
def Obligations.DecodeOfEncodeIsTheCommand : Prop :=
  ∀ i : Instr, decode (encode i) = .ok i

/-- R88: every word either selects exactly one command, of which it is the word, or is ILLEGAL; `LegalWord` spells the table of R83 field by field. -/
def Obligations.DecoderIsTotalOverWords : Prop :=
  ∀ w : CmdWord,
    (LegalWord w ∧ ∃ i, decode w = .ok i ∧ encode i = w ∧ ∀ j, encode j = w → j = i) ∨
      (¬ LegalWord w ∧ (∃ e, decode w = .error e) ∧ ∀ i, encode i ≠ w)

/-- The operands of a decoded command are the bits that R81 and R84 name. -/
def Obligations.OperandsAreTheNamedBits : Prop :=
  ∀ (w : CmdWord) (i : Instr), decode w = .ok i →
    let p := w.extractLsb' 8 8
    let level := if w.getLsbD 16 then Level.high else Level.low
    let n := w.extractLsb' 17 7
    let d := w.extractLsb' 32 32
    (w.op = 0x01 → i = .pulse p level d) ∧
    (w.op = 0x02 → i = .pulseAll level d) ∧
    (w.op = 0x03 → i = .reset p) ∧
    (w.op = 0x04 → i = .resetAll) ∧
    (w.op = 0x05 → i = .encode p n (w.extractLsb' 64 64)) ∧
    (w.op = 0x06 → i = .readEnc d) ∧
    (w.op = 0x07 → i = .reverse n (w.extractLsb' 64 64)) ∧
    (w.op = 0x08 → i = .loadLast p n (w.extractLsb' 64 32)) ∧
    (w.op = 0x09 → i = .readLast p) ∧
    (w.op = 0x0A → i = .readState p) ∧
    (w.op = 0x0B → i = .readTemplate p)

/-- R85, R86: a word with a reserved opcode or a non-zero must-be-zero bit is answered ILLEGAL and changes no state; the all-zero word is one. -/
def Obligations.IllegalWordsAreRejectedWithoutEffect : Prop :=
  (∀ (s : State) (w : CmdWord) (rest : List CmdWord), s.cfg.wf = true → s.cmds = w :: rest → ¬ LegalWord w →
    step s = .next { s with cmds := rest, trace := s.trace ++ [.response ⟨.illegal, .empty⟩] }) ∧
  (∀ w : CmdWord, w.op = 0 ∨ 0x0C ≤ w.op.toNat → ¬ LegalWord w) ∧
  ¬ LegalWord 0

/-- R92: the worked encodings, in both directions, and the counter-example. -/
def Obligations.WorkedEncodingsHold : Prop :=
  ([(.pulse 0 .low 25200, 0x00000000_00000000_00006270_00000001),
    (.pulse 0 .high 700, 0x00000000_00000000_000002BC_00010001),
    (.pulse 1 .high 700, 0x00000000_00000000_000002BC_00010101),
    (.pulseAll .low 25200, 0x00000000_00000000_00006270_00000002),
    (.reset 2, 0x00000000_00000000_00000000_00000203),
    (.resetAll, 0x00000000_00000000_00000000_00000004),
    (.encode 0 12 0xB24, 0x00000000_00000B24_00000000_00180005),
    (.readEnc 3, 0x00000000_00000000_00000003_00000006),
    (.reverse 12 0xB24, 0x00000000_00000B24_00000000_00180007),
    (.loadLast 0 12 0xB24, 0x00000000_00000B24_00000000_00180008),
    (.readLast 0, 0x00000000_00000000_00000000_00000009),
    (.readState 0, 0x00000000_00000000_00000000_0000000A),
    (.readTemplate 0, 0x00000000_00000000_00000000_0000000B)] : List (Instr × CmdWord)).all
      (fun x => decide (encode x.1 = x.2) && decide ((decode x.2).toOption = some x.1)) = true ∧
  (decode 0x00000000_00000000_000002BC_00020001).toOption = none

/-- A word carried as 16 bytes, byte `k` holding `CW[8k+7 : 8k]`, decodes as the word does (20_memory.md, byte order); 16 is the only length, which is the model's choice (log entry 13). -/
def Obligations.SerializedWordDecodesAlike : Prop :=
  (∀ w : CmdWord, (bytesOfWord w).length = 16 ∧ (∀ k, k < 16 → (bytesOfWord w)[k]? = some (w.extractLsb' (8 * k) 8)) ∧
    decodeBytes (bytesOfWord w) = decode w) ∧
  (∀ bs : List Byte, bs.length ≠ 16 → decodeBytes bs = .error .notSixteenBytes)

/-! ### Steps and configuration -/

/-- A step runs the command that the next word decodes to, on the state without that word (30_encoding.md, the command port; the list of words is the model's, log entry 2). -/
def Obligations.StepRunsTheDecodedCommand : Prop :=
  ∀ (s : State) (w : CmdWord) (rest : List CmdWord) (i : Instr), s.cfg.wf = true → s.cmds = w :: rest → decode w = .ok i →
    step s = exec i { s with cmds := rest }

/-- Commands issued one after another are that many steps (20_memory.md, ordering). -/
def Obligations.CommandSequenceIsThatManySteps : Prop :=
  ∀ (is : List Instr) (s t : State), s.cfg.wf = true → runCommands is s = .next t →
    Host.Core.run Sys2Proof.core is.length { s with cmds := is.map encode ++ s.cmds } = .next t

/-- With no command presented the block waits and keeps all its state (model's reading of R325 and R341, log entry 3). -/
def Obligations.WaitingBlockKeepsItsState : Prop :=
  ∀ s : State, s.cfg.wf = true → s.cmds = [] → step s = .next s

/-- 10_state.md R31 and 70_reset_and_hazards.md R344: a well-formed configuration gives the block after power-on reset, an ill-formed one is refused, at construction and (the model's own, log entry 6) at a step. -/
def Obligations.IllFormedConfigurationIsRefused : Prop :=
  (∀ t : Template, t.wf = true ↔
    (1 ≤ t.k.toNat ∧ t.k.toNat ≤ 255) ∧ t.minb.toNat ≤ 64 ∧ t.short.toNat * t.k.toNat ≤ 2 ^ 32 - 1) ∧
  (∀ c : Config, c.wf = true ↔
    1 ≤ c.templates.length ∧ c.templates.length ≤ 256 ∧ 2 ≤ c.encCap ∧ ∀ t ∈ c.templates, t.wf = true) ∧
  (∀ c : Config, c.wf = true → construct c = .next (State.powerOn c)) ∧
  (∀ c : Config, c.wf = false → construct c = .refused .illFormedConfiguration) ∧
  (∀ s : State, s.cfg.wf = false → step s = .refused .illFormedConfiguration)

/-- No command changes the templates, `N_DEC` or `ENC_CAP` (10_state.md R30; 45_dispatcher.md R264). -/
def Obligations.ConfigurationNeverChanges : Prop :=
  ∀ s s' : State, step s = .next s' → s'.cfg = s.cfg ∧ s'.cmds = s.cmds.tail

/-! ### Reset -/

/-- R340: power-on reset puts every register into its reset value and leaves the configuration. -/
def Obligations.PowerOnResetValues : Prop :=
  (∀ c : Config,
    (State.powerOn c).cfg = c ∧
    (State.powerOn c).block.slots.length = c.nDec ∧
    (∀ r ∈ (State.powerOn c).block.slots,
      r.st = .idle ∧ r.pend = 0 ∧ r.bufv = 0 ∧ r.bufn = 0 ∧ r.lastv = 0 ∧ r.lastn = 0 ∧ r.lastok = false) ∧
    (State.powerOn c).block.encLen = 0 ∧
    (State.powerOn c).block.encBuf.length = c.encCap ∧
    (∀ e ∈ (State.powerOn c).block.encBuf, e.lvl = .low ∧ e.dur = 0)) ∧
  (∀ s : State, s.powerOnReset.cfg = s.cfg ∧ s.powerOnReset.block = (State.powerOn s.cfg).block)

/-- The invariant holds right after reset, for every well-formed configuration, and for `State.reset`, whose configuration is the model's choice (log entry 1). -/
def Obligations.ResetMeetsTheInvariant : Prop :=
  (∀ c : Config, c.wf = true → (State.powerOn c).Inv) ∧ State.reset.Inv

/-! ### Invariants and whole runs -/

/-- Every step keeps the invariant: buffer bounds, `BUFV < 2^BUFN`, `ENC_LEN` even and within the capacity, the encoded levels alternating, PEND below the end-of-frame threshold in AW2, one register set per slot (10_state.md R20 to R34; 43_encoder.md R197). -/
def Obligations.EveryStepKeepsTheInvariant : Prop :=
  ∀ s s' : State, s.Inv → step s = .next s' → s'.Inv

/-- R23, R24, R34: in every reachable state `BUFN ≤ 64`, `BUFV < 2^BUFN`, and `ENC_LEN` is 0 or even within `2 .. ENC_CAP`. -/
def Obligations.ReachableBuffersAreBounded : Prop :=
  ∀ (c : Config) (s : State), c.wf = true → Reachable c s →
    (∀ r ∈ s.block.slots, r.bufn.toNat ≤ 64 ∧ r.bufv.toNat < 2 ^ r.bufn.toNat) ∧
    (s.block.encLen = 0 ∨ (s.block.encLen % 2 = 0 ∧ 2 ≤ s.block.encLen ∧ s.block.encLen ≤ c.encCap))

/-- A block of a well-formed configuration whose sink accepts every event never stops, whatever words the host issues (60_exceptions.md, status codes; no trap exists). -/
def Obligations.AcceptingSinkRunsNeverStop : Prop :=
  ∀ s : State, s.cfg.wf = true → s.sinkAccepts → Safe s

/-! ### Classifier -/

/-- R110: `match(d, w, t)` is `|d - w| < t`, and the matching `d` are those from `max(0, w - t + 1)` to `w + t - 1`. -/
def Obligations.MatchIsStrictDistance : Prop :=
  ∀ d w t : Nat,
    (matchDur d w t = true ↔ |(d : ℤ) - (w : ℤ)| < (t : ℤ)) ∧
    (matchDur d w t = true ↔ max 0 ((w : ℤ) - t + 1) ≤ (d : ℤ) ∧ (d : ℤ) ≤ (w : ℤ) + t - 1)

/-- R113, R114, R115: the header, start-bit and end-of-frame classes, and their windows for the spec's template A. -/
def Obligations.ClassesOfOneDuration : Prop :=
  (∀ (t : Template) (d : Dur),
    (isHeader t d = true ↔ |(d.toNat : ℤ) - (t.short.toNat : ℤ) * t.k.toNat| < (t.tol.toNat : ℤ) * t.k.toNat) ∧
    (isStart t d = true ↔ |(d.toNat : ℤ) - (t.short.toNat : ℤ)| < (t.tol.toNat : ℤ)) ∧
    (isEOF t d = true ↔ t.short.toNat * 4 ≤ d.toNat)) ∧
  (∀ d : Dur,
    (isHeader Template.templateA d = true ↔ 18001 ≤ d.toNat ∧ d.toNat ≤ 32399) ∧
    (isEOF Template.templateA d = true ↔ 2800 ≤ d.toNat))

/-- R116, R117: the bit-symbol class, the bit-0 shape first; both shapes match only if `|LONG - SHORT| < 2 * TOL`, and then the result is 0. -/
def Obligations.SymbolClass : Prop :=
  (∀ (t : Template) (a b : Dur),
    let near (x w : Dur) : Prop := |(x.toNat : ℤ) - (w.toNat : ℤ)| < (t.tol.toNat : ℤ)
    (near a t.short ∧ near b t.long → sym t a b = some false) ∧
    (¬ (near a t.short ∧ near b t.long) → near a t.long ∧ near b t.short → sym t a b = some true) ∧
    (¬ (near a t.short ∧ near b t.long) → ¬ (near a t.long ∧ near b t.short) → sym t a b = none) ∧
    ((near a t.short ∧ near b t.long) ∧ near a t.long ∧ near b t.short →
      |(t.long.toNat : ℤ) - (t.short.toNat : ℤ)| < 2 * (t.tol.toNat : ℤ) ∧ sym t a b = some false)) ∧
  sym ⟨100, 150, 60, 1, 0⟩ 120 130 = some false

/-! ### Decoder -/

/-- R131 to R135, R138, R139: the next-state table of `Step`, row by row. -/
def Obligations.NextStateTable : Prop :=
  ∀ (t : Template) (p : SlotNo) (d : Dur) (r : SlotRegs),
    (r.st = .idle →
      (isHeader t d = true → stepSlot t p .low d r = ({ r with st := .hdr }, none)) ∧
      (isHeader t d = false → stepSlot t p .low d r = (r, none)) ∧
      stepSlot t p .high d r = (r, none)) ∧
    (r.st = .hdr →
      stepSlot t p .low d r = (r, none) ∧
      (isStart t d = true → stepSlot t p .high d r = ({ r with st := .awl, bufv := 0, bufn := 0 }, none)) ∧
      (isStart t d = false → stepSlot t p .high d r = ({ r with st := .idle }, none))) ∧
    (r.st = .awl →
      stepSlot t p .high d r = ({ r with st := .idle }, none) ∧
      (isEOF t d = true → t.minb.toNat ≤ r.bufn.toNat →
        stepSlot t p .low d r =
          ({ r with st := .hdr, lastv := r.bufv, lastn := r.bufn, lastok := true }, some ⟨.found, p, r.bufv, r.bufn⟩)) ∧
      (isEOF t d = true → r.bufn.toNat < t.minb.toNat → stepSlot t p .low d r = ({ r with st := .hdr }, none)) ∧
      (isEOF t d = false → stepSlot t p .low d r = ({ r with st := .aw2, pend := d }, none))) ∧
    (r.st = .aw2 →
      stepSlot t p .low d r = ({ r with st := .idle }, none) ∧
      (sym t r.pend d = none → stepSlot t p .high d r = ({ r with st := .idle }, none)) ∧
      (∀ b, sym t r.pend d = some b → r.bufn.toNat = 64 →
        stepSlot t p .high d r = ({ r with st := .idle }, some ⟨.overflow, p, r.bufv, 64⟩)) ∧
      (∀ b, sym t r.pend d = some b → r.bufn.toNat < 64 →
        stepSlot t p .high d r =
          ({ r with st := .awl, bufv := (r.bufv <<< 1) ||| (if b then 1 else 0), bufn := r.bufn + 1 }, none)))

/-- PULSE runs one `Step` of its slot, delivers the event it raises and then responds OK (41_decoder.md R130, R136). -/
def Obligations.PulseRunsOneStep : Prop :=
  ∀ (s : State) (p : SlotNo) (lvl : Level) (d : Dur), p.toNat < s.cfg.nDec → s.sinkAccepts →
    let out := stepSlot (s.tpl p.toNat) p lvl d (s.reg p.toNat)
    exec (.pulse p lvl d) s = .next
      { s with
        block := { s.block with slots := s.block.slots.set p.toNat out.1 }
        sink := s.sink.drop out.2.toList.length
        trace := s.trace ++ out.2.toList.map PortRecord.event ++ [.response ⟨.ok, .empty⟩] }

/-- The frame of PULSE: other slots, the encoder and the configuration are unchanged, and each register of its slot changes only where 41_decoder.md names it. -/
def Obligations.PulseFrame : Prop :=
  ∀ (s s' : State) (p : SlotNo) (lvl : Level) (d : Dur), s.block.slots.length = s.cfg.nDec → p.toNat < s.cfg.nDec →
    exec (.pulse p lvl d) s = .next s' →
    let t := s.tpl p.toNat
    let r := s.reg p.toNat
    let r' := s'.reg p.toNat
    s'.cfg = s.cfg ∧ s'.cmds = s.cmds ∧ s'.block.encBuf = s.block.encBuf ∧ s'.block.encLen = s.block.encLen ∧
    s'.block.slots.length = s.block.slots.length ∧
    (∀ q, q ≠ p.toNat → s'.reg q = s.reg q) ∧
    (¬ (r.st = .awl ∧ lvl = .low ∧ isEOF t d = false) → r'.pend = r.pend) ∧
    (¬ (r.st = .hdr ∧ lvl = .high ∧ isStart t d = true) →
      ¬ (r.st = .aw2 ∧ lvl = .high ∧ (sym t r.pend d).isSome = true ∧ r.bufn ≠ 64) →
      r'.bufv = r.bufv ∧ r'.bufn = r.bufn) ∧
    (¬ (r.st = .awl ∧ lvl = .low ∧ isEOF t d = true ∧ t.minb.toNat ≤ r.bufn.toNat) →
      r'.lastv = r.lastv ∧ r'.lastn = r.lastn ∧ r'.lastok = r.lastok)

/-- A slot with tolerance 0 never leaves IDLE: any pulses leave the block as it is and are answered OK (10_state.md R31; 40_classifier.md R112; 41_decoder.md R130, corner cases). -/
def Obligations.ZeroToleranceSlotStaysIdle : Prop :=
  ∀ (ps : List Pulse) (s : State) (p : SlotNo), s.block.slots.length = s.cfg.nDec → p.toNat < s.cfg.nDec →
    (s.tpl p.toNat).tol = 0 → (s.reg p.toNat).st = .idle →
    runCommands (pulseCommands p ps) s =
      .next { s with trace := s.trace ++ List.replicate ps.length (.response ⟨.ok, .empty⟩) }

/-- R140: with `MINB = 0`, header, start bit and end-of-frame report a code of value 0 and 0 bits. -/
def Obligations.EmptyFrameIsReportedWithMinbZero : Prop :=
  ∀ (s : State) (p : SlotNo) (d1 d2 d3 : Dur), s.block.slots.length = s.cfg.nDec → p.toNat < s.cfg.nDec → s.sinkAccepts →
    (s.tpl p.toNat).minb = 0 → (s.reg p.toNat).st = .idle →
    isHeader (s.tpl p.toNat) d1 = true → isStart (s.tpl p.toNat) d2 = true → isEOF (s.tpl p.toNat) d3 = true →
    ∃ s', runCommands [.pulse p .low d1, .pulse p .high d2, .pulse p .low d3] s = .next s' ∧
      eventsOf s'.trace = eventsOf s.trace ++ [⟨.found, p, 0, 0⟩] ∧
      (s'.reg p.toNat).lastv = 0 ∧ (s'.reg p.toNat).lastn = 0 ∧ (s'.reg p.toNat).lastok = true

/-- R145: the 65th symbol raises OVERFLOW and sends the slot to IDLE, and a low pulse after it is tested only as a header: no event, no write to the last-found registers. -/
def Obligations.OverlongFrameIsNeverReported : Prop :=
  ∀ (s : State) (p : SlotNo) (d1 d2 : Dur) (b : Bool), s.block.slots.length = s.cfg.nDec → p.toNat < s.cfg.nDec → s.sinkAccepts →
    (s.reg p.toNat).st = .aw2 → (s.reg p.toNat).bufn = 64 → sym (s.tpl p.toNat) (s.reg p.toNat).pend d1 = some b →
    ∃ s1 s2, exec (.pulse p .high d1) s = .next s1 ∧ exec (.pulse p .low d2) s1 = .next s2 ∧
      (s1.reg p.toNat).st = .idle ∧
      eventsOf s1.trace = eventsOf s.trace ++ [⟨.overflow, p, (s.reg p.toNat).bufv, 64⟩] ∧
      eventsOf s2.trace = eventsOf s1.trace ∧
      (s2.reg p.toNat).st = (if isHeader (s.tpl p.toNat) d2 then .hdr else .idle) ∧
      (s2.reg p.toNat).lastv = (s.reg p.toNat).lastv ∧ (s2.reg p.toNat).lastn = (s.reg p.toNat).lastn ∧
      (s2.reg p.toNat).lastok = (s.reg p.toNat).lastok

/-- R146: in AWL the nominal header of a repeated frame is an end-of-frame when `SHORT * K ≥ SHORT * EOF_MULT`, as for `K ≥ 4` and for the template of the spec's scenario: the slot goes to HDR, reporting the frame when `BUFN ≥ MINB`, and the start bit that follows begins the new frame. -/
def Obligations.RepeatedHeaderEndsTheFrame : Prop :=
  (∀ (t : Template) (p : SlotNo) (r : SlotRegs) (d d2 : Dur), r.st = .awl → d.toNat = t.short.toNat * t.k.toNat →
    let out := stepSlot t p .low d r
    (4 ≤ t.k.toNat → t.short.toNat * 4 ≤ t.short.toNat * t.k.toNat) ∧
    (t.short.toNat * 4 ≤ t.short.toNat * t.k.toNat →
      out.1.st = .hdr ∧
      (t.minb.toNat ≤ r.bufn.toNat → out.2 = some ⟨.found, p, r.bufv, r.bufn⟩) ∧
      (r.bufn.toNat < t.minb.toNat → out.2 = none) ∧
      (isStart t d2 = true → stepSlot t p .high d2 out.1 = ({ out.1 with st := .awl, bufv := 0, bufn := 0 }, none)))) ∧
  isEOF Template.templateA 25200 = true

/-- RESET and RESET_ALL write only `ST`, and answer OK (41_decoder.md R137; 45_dispatcher.md R262). -/
def Obligations.ResetsWriteOnlyTheState : Prop :=
  (∀ (s : State) (p : SlotNo), p.toNat < s.cfg.nDec →
    exec (.reset p) s = .next
      { s with
        block := { s.block with slots := s.block.slots.set p.toNat { s.reg p.toNat with st := .idle } }
        trace := s.trace ++ [.response ⟨.ok, .empty⟩] }) ∧
  (∀ s : State, exec .resetAll s = .next
      { s with
        block := { s.block with slots := s.block.slots.map fun r => { r with st := .idle } }
        trace := s.trace ++ [.response ⟨.ok, .empty⟩] })

/-! ### Slots -/

/-- R25: nothing of a slot `q` depends on another slot. Two states that agree on slot `q`'s registers and template, and on the number of slots, end alike in slot `q`, raise the same events of slot `q`, and answer alike a command of slot `q`, whatever the rest holds; and a command of another slot writes nothing in slot `q`. -/
def Obligations.SlotsAreIsolated : Prop :=
  ∀ (i : Instr) (s u s' u' : State) (q : Nat), s.cfg.wf = true → s.cfg.nDec = u.cfg.nDec → q < s.cfg.nDec →
    s.block.slots.length = s.cfg.nDec → u.block.slots.length = u.cfg.nDec → s.tpl q = u.tpl q → s.reg q = u.reg q →
    exec i s = .next s' → exec i u = .next u' →
    s'.reg q = u'.reg q ∧
    (∃ (es fs : List Event) (a b : Response),
      s'.trace = s.trace ++ es.map PortRecord.event ++ [.response a] ∧
      u'.trace = u.trace ++ fs.map PortRecord.event ++ [.response b] ∧
      es.filter (fun e => e.slot.toNat = q) = fs.filter (fun e => e.slot.toNat = q) ∧
      (∀ p : SlotNo, i.slotOperand = some p → p.toNat = q → i.encoderSide = false → a = b)) ∧
    (∀ p : SlotNo, i.slotOperand = some p → p.toNat ≠ q → s'.reg q = s.reg q)

/-- PULSE_ALL steps every slot with its own template and delivers the events in ascending slot order (45_dispatcher.md R260; 20_memory.md R70). -/
def Obligations.BroadcastStepsEverySlot : Prop :=
  ∀ (s : State) (lvl : Level) (d : Dur), s.block.slots.length = s.cfg.nDec → s.sinkAccepts →
    let out (q : Nat) := stepSlot (s.tpl q) (BitVec.ofNat 8 q) lvl d (s.reg q)
    let es := (List.range s.cfg.nDec).flatMap fun q => (out q).2.toList
    ∃ s', exec (.pulseAll lvl d) s = .next s' ∧
      (∀ q, q < s.cfg.nDec → s'.reg q = (out q).1) ∧
      s'.block.slots.length = s.block.slots.length ∧
      s'.trace = s.trace ++ es.map PortRecord.event ++ [.response ⟨.ok, .empty⟩] ∧
      s'.sink = s.sink.drop es.length ∧
      s'.cfg = s.cfg ∧ s'.cmds = s.cmds ∧ s'.block.encBuf = s.block.encBuf ∧ s'.block.encLen = s.block.encLen

/-- R261: PULSE_ALL and PULSE of each slot in turn give the same final state of the block and the same events. -/
def Obligations.BroadcastIsEachSlotInTurn : Prop :=
  ∀ (s : State) (lvl : Level) (d : Dur), s.cfg.wf = true → s.block.slots.length = s.cfg.nDec → s.sinkAccepts →
    ∃ s1 s2, exec (.pulseAll lvl d) s = .next s1 ∧ runCommands (eachSlotCommands s.cfg.nDec lvl d) s = .next s2 ∧
      s1.block = s2.block ∧ s1.cfg = s2.cfg ∧ eventsOf s1.trace = eventsOf s2.trace

/-- R265: pulses fed through PULSE_ALL leave slot `q` as the same pulses fed to it alone with PULSE, in a block whose other slots may be anything. -/
def Obligations.BroadcastLeavesEachSlotAsIfAlone : Prop :=
  ∀ (ps : List Pulse) (s u s' u' : State) (q : SlotNo), q.toNat < s.cfg.nDec → q.toNat < u.cfg.nDec →
    s.block.slots.length = s.cfg.nDec → u.block.slots.length = u.cfg.nDec →
    s.tpl q.toNat = u.tpl q.toNat → s.reg q.toNat = u.reg q.toNat →
    runCommands (broadcastCommands ps) s = .next s' → runCommands (pulseCommands q ps) u = .next u' →
    s'.reg q.toNat = u'.reg q.toNat

/-! ### Accumulator and reversal -/

/-- R170, R171: Clear empties the buffer; Append shifts one bit in from the right, loses none, and fails without a write at 64 bits. -/
def Obligations.AppendShiftsInFromTheRight : Prop :=
  ∀ (r : SlotRegs) (b : Bool),
    r.clear = { r with bufv := 0, bufn := 0 } ∧
    (r.bufn = 64 → r.append b = none) ∧
    (r.bufn.toNat < 64 →
      ∃ r', r.append b = some r' ∧ r' = { r with bufv := r'.bufv, bufn := r'.bufn } ∧
        r'.bufv.toNat = (2 * r.bufv.toNat + b.toNat) % 2 ^ 64 ∧ r'.bufn.toNat = r.bufn.toNat + 1 ∧
        (r.bufv.toNat < 2 ^ r.bufn.toNat →
          r'.bufv.toNat = 2 * r.bufv.toNat + b.toNat ∧ r'.bufv.toNat < 2 ^ r'.bufn.toNat))

/-- R172: after appends of `b_1 .. b_n` to a cleared buffer, `BUFV` is the sum of `b_j * 2^(n-j)` and `BUFN` is `n`. -/
def Obligations.FirstAppendedBitIsMostSignificant : Prop :=
  ∀ (r : SlotRegs) (bs : List Bool), bs.length ≤ 64 →
    ∃ r', r.clear.appendAll bs = some r' ∧ r'.bufn.toNat = bs.length ∧
      r'.bufv.toNat = ((List.range bs.length).map fun j => (bs.getD j false).toNat * 2 ^ (bs.length - 1 - j)).sum

/-- R176: from a cleared buffer `k` appends succeed for `k ≤ 64`, and one more fails only when `k = 64`. -/
def Obligations.SixtyFifthAppendFails : Prop :=
  ∀ (r : SlotRegs) (bs : List Bool) (b : Bool),
    (bs.length ≤ 64 → ∃ r', r.clear.appendAll bs = some r' ∧ (r'.append b = none ↔ bs.length = 64)) ∧
    (64 < bs.length → r.clear.appendAll bs = none)

/-- R174: bit 0 of the input becomes bit `n-1` of the output and so on; bits at `n` and above do not matter, the result is below `2^n`, and over 0 bits it is 0. -/
def Obligations.ReverseBitsMovesEachBit : Prop :=
  ∀ (v : Code) (n : Nat), n ≤ 64 →
    (reverseBits v n).toNat = ((List.range n).map fun i => (v.getLsbD i).toNat * 2 ^ (n - 1 - i)).sum ∧
    (∀ i, i < n → (reverseBits v n).getLsbD (n - 1 - i) = v.getLsbD i) ∧
    (reverseBits v n).toNat < 2 ^ n ∧
    (∀ u : Code, (∀ i, i < n → u.getLsbD i = v.getLsbD i) → reverseBits u n = reverseBits v n) ∧
    reverseBits v 0 = 0

/-- R175: reversing twice over `n` bits gives `v mod 2^n`, and so `v` itself when `v < 2^n`. -/
def Obligations.ReversingTwiceKeepsTheLowBits : Prop :=
  ∀ (v : Code) (n : Nat), n ≤ 64 →
    (reverseBits (reverseBits v n) n).toNat = v.toNat % 2 ^ n ∧
    (v.toNat < 2 ^ n → reverseBits (reverseBits v n) n = v)

/-! ### Encoder -/

/-- ENCODE writes header, start bit and two pulses per bit, most significant first, sets `ENC_LEN`, keeps every other entry and every slot, and answers the new length (43_encoder.md R191, R192, R194). -/
def Obligations.EncodeWritesTheSequence : Prop :=
  ∀ (s : State) (p : SlotNo) (n : Count) (v : Code), s.cfg.wf = true → p.toNat < s.cfg.nDec → n.toNat ≤ 64 →
    2 + 2 * n.toNat ≤ s.cfg.encCap →
    let t := s.tpl p.toNat
    ∃ s', exec (.encode p n v) s = .next s' ∧
      (∃ h : Dur, h.toNat = t.short.toNat * t.k.toNat ∧ s'.block.encBuf[0]? = some ⟨.low, h⟩) ∧
      s'.block.encBuf[1]? = some ⟨.high, t.short⟩ ∧
      (∀ j, j < n.toNat →
        (v.getLsbD (n.toNat - 1 - j) = true →
          s'.block.encBuf[2 + 2 * j]? = some ⟨.low, t.long⟩ ∧ s'.block.encBuf[3 + 2 * j]? = some ⟨.high, t.short⟩) ∧
        (v.getLsbD (n.toNat - 1 - j) = false →
          s'.block.encBuf[2 + 2 * j]? = some ⟨.low, t.short⟩ ∧ s'.block.encBuf[3 + 2 * j]? = some ⟨.high, t.long⟩)) ∧
      (∀ i, 2 + 2 * n.toNat ≤ i → s'.block.encBuf[i]? = s.block.encBuf[i]?) ∧
      s'.block.encLen = 2 + 2 * n.toNat ∧
      s'.block.slots = s.block.slots ∧ s'.cfg = s.cfg ∧ s'.cmds = s.cmds ∧ s'.sink = s.sink ∧
      s'.trace = s.trace ++ [.response ⟨.ok, .len (2 + 2 * n.toNat)⟩]

/-- R193: an ENCODE that fails any check, of its word or of its operands, writes nothing; the first failing check decides its status. -/
def Obligations.RejectedEncodeWritesNothing : Prop :=
  (∀ (s : State) (w : CmdWord) (rest : List CmdWord), s.cfg.wf = true → s.cmds = w :: rest → w.op = 0x05 → ¬ LegalWord w →
    step s = .next { s with cmds := rest, trace := s.trace ++ [.response ⟨.illegal, .empty⟩] }) ∧
  (∀ (s : State) (p : SlotNo) (n : Count) (v : Code),
    (s.cfg.nDec ≤ p.toNat →
      exec (.encode p n v) s = .next { s with trace := s.trace ++ [.response ⟨.badSlot, .empty⟩] }) ∧
    (p.toNat < s.cfg.nDec → 64 < n.toNat →
      exec (.encode p n v) s = .next { s with trace := s.trace ++ [.response ⟨.badNb, .empty⟩] }) ∧
    (p.toNat < s.cfg.nDec → n.toNat ≤ 64 → s.cfg.encCap < 2 + 2 * n.toNat →
      exec (.encode p n v) s = .next { s with trace := s.trace ++ [.response ⟨.encOverflow, .empty⟩] }))

/-- R197: the encoded sequence has `2 + 2n` pulses, starts low and alternates in level. -/
def Obligations.EncodedPulsesAlternate : Prop :=
  ∀ (t : Template) (v : Code) (n : Nat),
    (encodePulses t v n).length = 2 + 2 * n ∧
    ∀ (j : Nat) (e : Pulse),
      ((encodePulses t v n)[2 * j]? = some e → e.lvl = .low) ∧ ((encodePulses t v n)[2 * j + 1]? = some e → e.lvl = .high)

/-- R199: ENCODE reads only the low `n` bits of its value: a value with higher bits set encodes as `v mod 2^n`. -/
def Obligations.EncodeReadsOnlyTheLowBits : Prop :=
  ∀ (s : State) (p : SlotNo) (n : Count) (v : Code), n.toNat ≤ 64 →
    exec (.encode p n v) s = exec (.encode p n (BitVec.ofNat 64 (v.toNat % 2 ^ n.toNat))) s

/-- READ_ENC returns `ENC_LEN` and the entry below it, and BAD_INDEX with `ENC_LEN` at or above it, as for every index right after reset (43_encoder.md R198; 70_reset_and_hazards.md R343). -/
def Obligations.ReadEncReturnsTheEntry : Prop :=
  (∀ (s : State) (i : BitVec 32) (e : Pulse), i.toNat < s.block.encLen → s.block.encBuf[i.toNat]? = some e →
    exec (.readEnc i) s = .next { s with trace := s.trace ++ [.response ⟨.ok, .entry s.block.encLen e.lvl e.dur⟩] }) ∧
  (∀ (s : State) (i : BitVec 32), s.block.encLen ≤ i.toNat →
    exec (.readEnc i) s = .next { s with trace := s.trace ++ [.response ⟨.badIndex, .len s.block.encLen⟩] }) ∧
  (∀ (c : Config) (i : BitVec 32),
    exec (.readEnc i) (State.powerOn c) = .next { State.powerOn c with trace := [.response ⟨.badIndex, .len 0⟩] })

/-- R196: the round trip. The pulses that ENCODE writes, fed to the slot and followed by an end-of-frame, raise exactly one event, FOUND, at the last pulse, with `v mod 2^n` and `n`. -/
def Obligations.EncodedCodeIsDecodedAgain : Prop :=
  ∀ (s : State) (p : SlotNo) (n : Count) (v : Code) (dEnd : Dur), s.cfg.wf = true → s.block.slots.length = s.cfg.nDec →
    p.toNat < s.cfg.nDec → s.sinkAccepts →
    let t := s.tpl p.toNat
    n.toNat ≤ 64 → t.minb.toNat ≤ n.toNat → 2 + 2 * n.toNat ≤ s.cfg.encCap → 1 ≤ t.tol.toNat →
    t.long.toNat < t.short.toNat * 4 → (t.tol.toNat : ℤ) ≤ |(t.long.toNat : ℤ) - (t.short.toNat : ℤ)| →
    ((s.reg p.toNat).st = .idle ∨ (s.reg p.toNat).st = .hdr) → t.short.toNat * 4 ≤ dEnd.toNat →
    ∃ s1 s2 s3, exec (.encode p n v) s = .next s1 ∧
      s1.block.encLen = 2 + 2 * n.toNat ∧
      runCommands (pulseCommands p (s1.block.encBuf.take s1.block.encLen)) s1 = .next s2 ∧
      eventsOf s2.trace = eventsOf s1.trace ∧
      exec (.pulse p .low dEnd) s2 = .next s3 ∧
      eventsOf s3.trace = eventsOf s1.trace ++ [⟨.found, p, BitVec.ofNat 64 (v.toNat % 2 ^ n.toNat), n⟩] ∧
      (s3.reg p.toNat).lastv.toNat = v.toNat % 2 ^ n.toNat ∧ (s3.reg p.toNat).lastn = n ∧
      (s3.reg p.toNat).lastok = true ∧ (s3.reg p.toNat).st = .hdr

/-! ### Results of the other commands -/

/-- REVERSE answers `reverse_bits(v, n)` and writes nothing; BAD_NB when `n > 64` (42_accumulator.md R173). -/
def Obligations.ReverseAnswersTheReversal : Prop :=
  ∀ (s : State) (n : Count) (v : Code),
    (n.toNat ≤ 64 →
      exec (.reverse n v) s = .next { s with trace := s.trace ++ [.response ⟨.ok, .res (reverseBits v n.toNat)⟩] }) ∧
    (64 < n.toNat → exec (.reverse n v) s = .next { s with trace := s.trace ++ [.response ⟨.badNb, .empty⟩] })

/-- LOAD_LAST writes the three last-found registers of its slot and nothing else: no event, no comparison with MINB, no masking (44_last_found_and_text.md R222, R223). -/
def Obligations.LoadLastInstallsTheCode : Prop :=
  ∀ (s : State) (p : SlotNo) (n : Count) (key : BitVec 32), p.toNat < s.cfg.nDec → n.toNat ≤ 64 →
    exec (.loadLast p n key) s = .next
      { s with
        block := { s.block with
          slots := s.block.slots.set p.toNat { s.reg p.toNat with lastv := key.setWidth 64, lastn := n, lastok := true } }
        trace := s.trace ++ [.response ⟨.ok, .empty⟩] }

/-- READ_LAST, READ_STATE and READ_TEMPLATE answer the registers and the template of their slot and write nothing (44_last_found_and_text.md R224; 46_register_access.md R280, R281; the state codes of R22). -/
def Obligations.RegisterReadsAnswerTheRegisters : Prop :=
  ∀ (s : State) (p : SlotNo) (t : Template) (r : SlotRegs), s.cfg.templates[p.toNat]? = some t →
    s.block.slots[p.toNat]? = some r →
    exec (.readLast p) s = .next { s with trace := s.trace ++ [.response ⟨.ok, .last r.lastok r.lastn r.lastv⟩] } ∧
    (∃ st : BitVec 2,
      exec (.readState p) s = .next { s with trace := s.trace ++ [.response ⟨.ok, .regs st r.pend r.bufn r.bufv⟩] } ∧
      (r.st = .idle ↔ st = 0) ∧ (r.st = .hdr ↔ st = 1) ∧ (r.st = .awl ↔ st = 2) ∧ (r.st = .aw2 ↔ st = 3)) ∧
    exec (.readTemplate p) s =
      .next { s with trace := s.trace ++ [.response ⟨.ok, .template t.short t.long t.tol t.k t.minb⟩] }

/-! ### Whole-machine rules -/

/-- READ_LAST, READ_STATE, READ_TEMPLATE, READ_ENC and REVERSE change no state and, repeated, return the same response; RESET and RESET_ALL are idempotent (20_memory.md R66). -/
def Obligations.ReadsChangeNothingAndResetsAreIdempotent : Prop :=
  (∀ (i : Instr) (s : State), i.readsOnly →
    ∃ r, exec i s = .next { s with trace := s.trace ++ [.response r] } ∧
      ∀ tr, exec i { s with trace := tr } = .next { s with trace := tr ++ [.response r] }) ∧
  (∀ (i : Instr) (s s1 : State), ((∃ p, i = .reset p) ∨ i = .resetAll) → exec i s = .next s1 →
    ∃ s2, exec i s1 = .next s2 ∧ s2.block = s1.block)

/-- R26, R27: the last-found registers of a slot are written together or not at all, and only by a validated end-of-frame of that slot or by a successful LOAD_LAST. -/
def Obligations.LastFoundHasTwoWritePaths : Prop :=
  ∀ (i : Instr) (s s' : State) (q : Nat), q < s.cfg.nDec → s.block.slots.length = s.cfg.nDec → exec i s = .next s' →
    let r := s.reg q
    let r' := s'.reg q
    (r'.lastv = r.lastv ∧ r'.lastn = r.lastn ∧ r'.lastok = r.lastok) ∨
    ((r'.lastv = r.bufv ∧ r'.lastn = r.bufn ∧ r'.lastok = true) ∧ r.st = .awl ∧ (s.tpl q).minb.toNat ≤ r.bufn.toNat ∧
      ∃ d, isEOF (s.tpl q) d = true ∧ (i = .pulseAll .low d ∨ ∃ p : SlotNo, p.toNat = q ∧ i = .pulse p .low d)) ∨
    (∃ (p : SlotNo) (n : Count) (key : BitVec 32), p.toNat = q ∧ i = .loadLast p n key ∧ n.toNat ≤ 64 ∧
      r'.lastv = key.setWidth 64 ∧ r'.lastn = n ∧ r'.lastok = true)

/-- R77: ENCODE, READ_ENC and REVERSE neither read nor write a slot's registers, the other commands neither read nor write the encoder, and so leaving the encoder's commands out of a sequence leaves the slots as they were. -/
def Obligations.EncoderAndSlotsShareNothing : Prop :=
  (∀ (i : Instr) (s t : State) (x : List SlotRegs), i.encoderSide = true → exec i s = .next t →
    t.block.slots = s.block.slots ∧
    exec i { s with block := { s.block with slots := x } } = .next { t with block := { t.block with slots := x } }) ∧
  (∀ (i : Instr) (s t : State) (b : List Pulse) (l : Nat), i.encoderSide = false → exec i s = .next t →
    t.block.encBuf = s.block.encBuf ∧ t.block.encLen = s.block.encLen ∧
    exec i { s with block := { s.block with encBuf := b, encLen := l } } =
      .next { t with block := { t.block with encBuf := b, encLen := l } }) ∧
  (∀ (is : List Instr) (s t : State), runCommands is s = .next t →
    ∃ u, runCommands (is.filter fun i => !i.encoderSide) s = .next u ∧ u.block.slots = t.block.slots)

/-- R71: a command returns exactly one response, after all the events it raised. -/
def Obligations.OneResponseAfterTheEvents : Prop :=
  ∀ (s s' : State) (w : CmdWord) (rest : List CmdWord), s.cmds = w :: rest → step s = .next s' →
    ∃ (es : List Event) (r : Response), s'.trace = s.trace ++ es.map PortRecord.event ++ [.response r]

/-- R302: a command whose status is not OK changes no state and raises no event. -/
def Obligations.RejectedCommandChangesNothing : Prop :=
  ∀ (s s' : State) (w : CmdWord) (rest : List CmdWord) (es : List Event) (r : Response), s.cmds = w :: rest →
    step s = .next s' → s'.trace = s.trace ++ es.map PortRecord.event ++ [.response r] → r.status ≠ .ok →
    es = [] ∧ s'.block = s.block ∧ s'.cfg = s.cfg ∧ s'.sink = s.sink

/-- R87, R303: the status of a command word is the first failing check in the order ILLEGAL, BAD_SLOT, BAD_NB, then ENC_OVERFLOW or BAD_INDEX, and a failing command writes nothing. -/
def Obligations.FirstFailingCheckDecidesTheStatus : Prop :=
  ∀ (s : State) (w : CmdWord) (rest : List CmdWord), s.cfg.wf = true → s.sinkAccepts → s.cmds = w :: rest →
    let usesSlot := w.op ∈ ([0x01, 0x03, 0x05, 0x08, 0x09, 0x0A, 0x0B] : List (BitVec 8))
    let usesCount := w.op ∈ ([0x05, 0x07, 0x08] : List (BitVec 8))
    let slotOk := usesSlot → w.slot.toNat < s.cfg.nDec
    let countOk := usesCount → w.nb.toNat ≤ 64
    let overflows := w.op = 0x05 ∧ s.cfg.encCap < 2 + 2 * w.nb.toNat
    let badIndex := w.op = 0x06 ∧ s.block.encLen ≤ w.dur.toNat
    ∃ (s' : State) (es : List Event) (st : Status) (f : Payload),
      step s = .next s' ∧ s'.trace = s.trace ++ es.map PortRecord.event ++ [.response ⟨st, f⟩] ∧
      (¬ LegalWord w → st = .illegal) ∧
      (LegalWord w → ¬ slotOk → st = .badSlot) ∧
      (LegalWord w → slotOk → ¬ countOk → st = .badNb) ∧
      (LegalWord w → slotOk → countOk → overflows → st = .encOverflow) ∧
      (LegalWord w → slotOk → countOk → badIndex → st = .badIndex) ∧
      (LegalWord w → slotOk → countOk → ¬ overflows → ¬ badIndex → st = .ok) ∧
      (st ≠ .ok → s'.block = s.block)

/-- Only PULSE and PULSE_ALL raise events, a PULSE at most one; the slots of a command's events ascend, so no slot raises two; every event is FOUND or an OVERFLOW of 64 bits; and a FOUND event is the host's callback with the name of its slot, the code, the bit count and the host's own context, an OVERFLOW none (60_exceptions.md R310, R313; 41_decoder.md R142, R144; 10_state.md R32, R38). -/
def Obligations.OnlyPulsesRaiseEvents : Prop :=
  ∀ (i : Instr) (s s' : State) (es : List Event) (r : Response), s.cfg.wf = true → exec i s = .next s' →
    s'.trace = s.trace ++ es.map PortRecord.event ++ [.response r] →
    (es ≠ [] → (∃ p lvl d, i = .pulse p lvl d) ∨ ∃ lvl d, i = .pulseAll lvl d) ∧
    ((∃ p lvl d, i = .pulse p lvl d) → es.length ≤ 1) ∧
    es.Pairwise (fun a b => a.slot.toNat < b.slot.toNat) ∧
    (∀ e ∈ es, e.slot.toNat < s.cfg.nDec ∧ (e.kind = .found ∨ (e.kind = .overflow ∧ e.nbits = 64))) ∧
    (∀ (γ : Type) (h : HostConfig) (ctx : γ), h.wf s.cfg = true → ∀ e ∈ es,
      ∃ name, h.names[e.slot.toNat]? = some name ∧ eventName h e = some name ∧
        (e.kind = .found → foundCallback h ctx e = some ⟨name, e.value, e.nbits, ctx⟩) ∧
        (e.kind = .overflow → foundCallback h ctx e = none))

/-- An event for a sink that never accepts, or that re-enters and waits, leaves the command without a next state; a pulse that raises no event does not ask the sink (60_exceptions.md R311; 70_reset_and_hazards.md R351). -/
def Obligations.StuckSinkHasNoNextState : Prop :=
  ∀ (s : State) (p : SlotNo) (lvl : Level) (d : Dur) (rest : List SinkReply), p.toNat < s.cfg.nDec →
    let e := (stepSlot (s.tpl p.toNat) p lvl d (s.reg p.toNat)).2
    (e.isSome = true → s.sink = .never :: rest → exec (.pulse p lvl d) s = .fault .sinkNeverAccepts) ∧
    (e.isSome = true → s.sink = .reenter :: rest → exec (.pulse p lvl d) s = .fault .reentrantDeadlock) ∧
    (e = none → ∃ s', exec (.pulse p lvl d) s = .next s' ∧ s'.sink = s.sink)

/-! ### Host text codec and macros -/

/-- R251: `parseBit` accepts exactly "Bit: " and one or more decimal digits that spell a number of at most 64. -/
def Obligations.ParseBitGrammar : Prop :=
  ∀ (line : Text) (n : Count), parseBit line = some n ↔
    ∃ ds : Text, line = ['B', 'i', 't', ':', ' '] ++ ds ∧ ds ≠ [] ∧ (∀ c ∈ ds, '0' ≤ c ∧ c ≤ '9') ∧
      ds.foldl (fun a c => 10 * a + (c.toNat - 48)) 0 = n.toNat ∧ n.toNat ≤ 64

/-- R252: `parseKey` accepts exactly "Key: " and 8 hexadecimal digits of either case, most significant first. -/
def Obligations.ParseKeyGrammar : Prop :=
  ∀ (line : Text) (key : BitVec 32), parseKey line = some key ↔
    ∃ ds : Text, line = ['K', 'e', 'y', ':', ' '] ++ ds ∧ ds.length = 8 ∧
      (∀ c ∈ ds, ('0' ≤ c ∧ c ≤ '9') ∨ ('A' ≤ c ∧ c ≤ 'F') ∨ ('a' ≤ c ∧ c ≤ 'f')) ∧
      ds.foldl (fun a c => 16 * a + (if c ≤ '9' then c.toNat - 48 else if c ≤ 'F' then c.toNat - 55 else c.toNat - 87)) 0 =
        key.toNat

/-- R250: load yields exactly one LOAD_LAST when both lines parse, and MalformedSaveRecord and no command otherwise. -/
def Obligations.LoadIssuesOneCommandOrFails : Prop :=
  ∀ (p : SlotNo) (l1 l2 : Text),
    (∀ n key, parseBit l1 = some n → parseKey l2 = some key → loadLines p l1 l2 = .ok (.loadLast p n key)) ∧
    (parseBit l1 = none ∨ parseKey l2 = none → loadLines p l1 l2 = .error .malformedSaveRecord)

/-- R241, R242: `hex8` writes 8 upper-case digits that spell the low 32 bits; `dec` writes the number with no leading zero, and `dec(0)` is "0". -/
def Obligations.NumbersAreWrittenInFull : Prop :=
  (∀ v : Code,
    (hex8 (lower32 v)).length = 8 ∧
    (∀ c ∈ hex8 (lower32 v), ('0' ≤ c ∧ c ≤ '9') ∨ ('A' ≤ c ∧ c ≤ 'F')) ∧
    (hex8 (lower32 v)).foldl (fun a c => 16 * a + (if c ≤ '9' then c.toNat - 48 else c.toNat - 55)) 0 = v.toNat % 2 ^ 32) ∧
  (∀ n : Count,
    (∀ c ∈ dec n, '0' ≤ c ∧ c ≤ '9') ∧ (dec n).foldl (fun a c => 10 * a + (c.toNat - 48)) 0 = n.toNat ∧
    (dec n).head? ≠ none ∧ (n ≠ 0 → (dec n).head? ≠ some '0')) ∧
  dec 0 = ['0']

/-- R245, R248, R254: the save record is exactly three lines, and there is none with `OK = 0`; saving `(V, N)` and loading the record back yields the slot's own LOAD_LAST with the low 32 bits of `V`; run, it leaves `LASTV = V & 0xFFFFFFFF`, `LASTN = N`, `LASTOK = 1`. -/
def Obligations.SaveThenLoadKeepsTheLowBits : Prop :=
  ∀ (h : HostConfig) (s : State) (p : SlotNo) (name : Text) (n : Count) (v : Code), h.wf s.cfg = true →
    s.block.slots.length = s.cfg.nDec → h.names[p.toNat]? = some name → n.toNat ≤ 64 →
    formatSave h p (.last false n v) = .error .nothingToSave ∧
    ∃ record i s', formatSave h p (.last true n v) = .ok record ∧
      record = ['P', 'r', 'o', 't', 'o', 'c', 'o', 'l', ':', ' '] ++ name ++ ['\n'] ++
        ['B', 'i', 't', ':', ' '] ++ dec n ++ ['\n'] ++ ['K', 'e', 'y', ':', ' '] ++ hex8 (v.setWidth 32) ++ ['\n'] ∧
      loadRecord h record = .ok i ∧ exec i s = .next s' ∧
      (s'.reg p.toNat).lastv = v &&& 0xFFFFFFFF ∧ (s'.reg p.toNat).lastn = n ∧ (s'.reg p.toNat).lastok = true

/-- The display string and the save record for what READ_LAST answers, and no record with `OK = 0`, as right after reset (44_last_found_and_text.md). That display forms its string with `OK = 0` too is the model's choice (log entry 16): the spec says nothing of that case. -/
def Obligations.DisplayAndSaveFromReadLast : Prop :=
  ∀ (h : HostConfig) (p : SlotNo) (name : Text) (ok : Bool) (n : Count) (v : Code), h.names[p.toNat]? = some name →
    formatDisplay h p (.last ok n v) = .ok (name ++ [' '] ++ dec n ++ [' ', 'B', 'i', 't', '\r', '\n'] ++
      [' ', 'K', 'E', 'Y', ':', '0', 'x'] ++ hex8 (v.setWidth 32) ++ ['\r', '\n'] ++
      [' ', 'Y', 'E', 'K', ':', '0', 'x'] ++ hex8 ((reverseBits v n.toNat).setWidth 32) ++ ['\r', '\n']) ∧
    formatSave h p (.last true n v) = .ok (['P', 'r', 'o', 't', 'o', 'c', 'o', 'l', ':', ' '] ++ name ++ ['\n'] ++
      ['B', 'i', 't', ':', ' '] ++ dec n ++ ['\n'] ++ ['K', 'e', 'y', ':', ' '] ++ hex8 (v.setWidth 32) ++ ['\n']) ∧
    formatSave h p (.last false n v) = .error .nothingToSave

/-- HEADER and SYM spell the encoder's sequence, and EOF is an end-of-frame where it fits DUR (30_encoding.md R91; 43_encoder.md R191; a macro that does not fit has no expansion, which is the model's choice, log entry 12). -/
def Obligations.MacrosSpellTheEncodedSequence : Prop :=
  ∀ (c : Config) (p : SlotNo) (t : Template) (v : Code) (n : Nat), t.wf = true → c.templates[p.toNat]? = some t →
    (∃ hdr, (Pseudo.header p).expand c = some hdr ∧
      pulseCommands p (encodePulses t v n) =
        hdr ++ (List.range n).flatMap fun j => ((Pseudo.sym p (v.getLsbD (n - 1 - j))).expand c).getD []) ∧
    (t.short.toNat * 4 < 2 ^ 32 → ∃ d, (Pseudo.eof p).expand c = some [.pulse p .low d] ∧ isEOF t d = true ∧
      d.toNat = t.short.toNat * 4) ∧
    (2 ^ 32 ≤ t.short.toNat * 4 → (Pseudo.eof p).expand c = none)
end

