-- ==== Sys2Proof/Laws/State.lean ====
section
/-! SUPPORT. One lemma per field per update of the state and of a slot's registers, true by rfl. -/

namespace Sys2Proof.Machine

/-! ### Updates of the state -/

@[simp] theorem State.setReg_cfg (s : State) (p : Nat) (r : SlotRegs) : (s.setReg p r).cfg = s.cfg := rfl
@[simp] theorem State.setReg_slots (s : State) (p : Nat) (r : SlotRegs) : (s.setReg p r).block.slots = s.block.slots.set p r := rfl
@[simp] theorem State.setReg_encBuf (s : State) (p : Nat) (r : SlotRegs) : (s.setReg p r).block.encBuf = s.block.encBuf := rfl
@[simp] theorem State.setReg_encLen (s : State) (p : Nat) (r : SlotRegs) : (s.setReg p r).block.encLen = s.block.encLen := rfl
@[simp] theorem State.setReg_cmds (s : State) (p : Nat) (r : SlotRegs) : (s.setReg p r).cmds = s.cmds := rfl
@[simp] theorem State.setReg_sink (s : State) (p : Nat) (r : SlotRegs) : (s.setReg p r).sink = s.sink := rfl
@[simp] theorem State.setReg_trace (s : State) (p : Nat) (r : SlotRegs) : (s.setReg p r).trace = s.trace := rfl

@[simp] theorem State.setRegs_cfg (s : State) (rs : List SlotRegs) : (s.setRegs rs).cfg = s.cfg := rfl
@[simp] theorem State.setRegs_slots (s : State) (rs : List SlotRegs) : (s.setRegs rs).block.slots = rs := rfl
@[simp] theorem State.setRegs_encBuf (s : State) (rs : List SlotRegs) : (s.setRegs rs).block.encBuf = s.block.encBuf := rfl
@[simp] theorem State.setRegs_encLen (s : State) (rs : List SlotRegs) : (s.setRegs rs).block.encLen = s.block.encLen := rfl
@[simp] theorem State.setRegs_cmds (s : State) (rs : List SlotRegs) : (s.setRegs rs).cmds = s.cmds := rfl
@[simp] theorem State.setRegs_sink (s : State) (rs : List SlotRegs) : (s.setRegs rs).sink = s.sink := rfl
@[simp] theorem State.setRegs_trace (s : State) (rs : List SlotRegs) : (s.setRegs rs).trace = s.trace := rfl

@[simp] theorem State.writeEnc_cfg (s : State) (ps : List Pulse) : (s.writeEnc ps).cfg = s.cfg := rfl
@[simp] theorem State.writeEnc_slots (s : State) (ps : List Pulse) : (s.writeEnc ps).block.slots = s.block.slots := rfl
@[simp] theorem State.writeEnc_encBuf (s : State) (ps : List Pulse) :
    (s.writeEnc ps).block.encBuf = ps ++ s.block.encBuf.drop ps.length := rfl
@[simp] theorem State.writeEnc_encLen (s : State) (ps : List Pulse) : (s.writeEnc ps).block.encLen = ps.length := rfl
@[simp] theorem State.writeEnc_cmds (s : State) (ps : List Pulse) : (s.writeEnc ps).cmds = s.cmds := rfl
@[simp] theorem State.writeEnc_sink (s : State) (ps : List Pulse) : (s.writeEnc ps).sink = s.sink := rfl
@[simp] theorem State.writeEnc_trace (s : State) (ps : List Pulse) : (s.writeEnc ps).trace = s.trace := rfl

@[simp] theorem State.emit_cfg (s : State) (r : PortRecord) : (s.emit r).cfg = s.cfg := rfl
@[simp] theorem State.emit_block (s : State) (r : PortRecord) : (s.emit r).block = s.block := rfl
@[simp] theorem State.emit_cmds (s : State) (r : PortRecord) : (s.emit r).cmds = s.cmds := rfl
@[simp] theorem State.emit_sink (s : State) (r : PortRecord) : (s.emit r).sink = s.sink := rfl
@[simp] theorem State.emit_trace (s : State) (r : PortRecord) : (s.emit r).trace = s.trace ++ [r] := rfl

@[simp] theorem State.powerOn_cfg (c : Config) : (State.powerOn c).cfg = c := rfl
@[simp] theorem State.powerOn_block (c : Config) : (State.powerOn c).block = Block.reset c := rfl
@[simp] theorem State.powerOn_cmds (c : Config) : (State.powerOn c).cmds = [] := rfl
@[simp] theorem State.powerOn_sink (c : Config) : (State.powerOn c).sink = [] := rfl
@[simp] theorem State.powerOn_trace (c : Config) : (State.powerOn c).trace = [] := rfl

/-! ### Reads depend on the fields they read -/

@[simp] theorem State.tpl_setReg (s : State) (p q : Nat) (r : SlotRegs) : (s.setReg p r).tpl q = s.tpl q := rfl
@[simp] theorem State.tpl_setRegs (s : State) (q : Nat) (rs : List SlotRegs) : (s.setRegs rs).tpl q = s.tpl q := rfl
@[simp] theorem State.tpl_writeEnc (s : State) (q : Nat) (ps : List Pulse) : (s.writeEnc ps).tpl q = s.tpl q := rfl
@[simp] theorem State.tpl_emit (s : State) (q : Nat) (r : PortRecord) : (s.emit r).tpl q = s.tpl q := rfl
@[simp] theorem State.reg_writeEnc (s : State) (q : Nat) (ps : List Pulse) : (s.writeEnc ps).reg q = s.reg q := rfl
@[simp] theorem State.reg_emit (s : State) (q : Nat) (r : PortRecord) : (s.emit r).reg q = s.reg q := rfl
@[simp] theorem State.encEntry_setReg (s : State) (p i : Nat) (r : SlotRegs) : (s.setReg p r).encEntry i = s.encEntry i := rfl
@[simp] theorem State.encEntry_setRegs (s : State) (i : Nat) (rs : List SlotRegs) : (s.setRegs rs).encEntry i = s.encEntry i := rfl
@[simp] theorem State.encEntry_emit (s : State) (i : Nat) (r : PortRecord) : (s.emit r).encEntry i = s.encEntry i := rfl

/-! ### Updates of a slot's registers -/

@[simp] theorem SlotRegs.goto_st (r : SlotRegs) (x : DecState) : (r.goto x).st = x := rfl
@[simp] theorem SlotRegs.goto_pend (r : SlotRegs) (x : DecState) : (r.goto x).pend = r.pend := rfl
@[simp] theorem SlotRegs.goto_bufv (r : SlotRegs) (x : DecState) : (r.goto x).bufv = r.bufv := rfl
@[simp] theorem SlotRegs.goto_bufn (r : SlotRegs) (x : DecState) : (r.goto x).bufn = r.bufn := rfl
@[simp] theorem SlotRegs.goto_lastv (r : SlotRegs) (x : DecState) : (r.goto x).lastv = r.lastv := rfl
@[simp] theorem SlotRegs.goto_lastn (r : SlotRegs) (x : DecState) : (r.goto x).lastn = r.lastn := rfl
@[simp] theorem SlotRegs.goto_lastok (r : SlotRegs) (x : DecState) : (r.goto x).lastok = r.lastok := rfl

@[simp] theorem SlotRegs.clear_st (r : SlotRegs) : r.clear.st = r.st := rfl
@[simp] theorem SlotRegs.clear_pend (r : SlotRegs) : r.clear.pend = r.pend := rfl
@[simp] theorem SlotRegs.clear_bufv (r : SlotRegs) : r.clear.bufv = 0 := rfl
@[simp] theorem SlotRegs.clear_bufn (r : SlotRegs) : r.clear.bufn = 0 := rfl
@[simp] theorem SlotRegs.clear_lastv (r : SlotRegs) : r.clear.lastv = r.lastv := rfl
@[simp] theorem SlotRegs.clear_lastn (r : SlotRegs) : r.clear.lastn = r.lastn := rfl
@[simp] theorem SlotRegs.clear_lastok (r : SlotRegs) : r.clear.lastok = r.lastok := rfl

@[simp] theorem SlotRegs.shiftIn_st (r : SlotRegs) (b : Bool) : (r.shiftIn b).st = r.st := rfl
@[simp] theorem SlotRegs.shiftIn_pend (r : SlotRegs) (b : Bool) : (r.shiftIn b).pend = r.pend := rfl
@[simp] theorem SlotRegs.shiftIn_bufv (r : SlotRegs) (b : Bool) :
    (r.shiftIn b).bufv = (r.bufv <<< 1) ||| (BitVec.ofBool b).setWidth 64 := rfl
@[simp] theorem SlotRegs.shiftIn_bufn (r : SlotRegs) (b : Bool) : (r.shiftIn b).bufn = r.bufn + 1 := rfl
@[simp] theorem SlotRegs.shiftIn_lastv (r : SlotRegs) (b : Bool) : (r.shiftIn b).lastv = r.lastv := rfl
@[simp] theorem SlotRegs.shiftIn_lastn (r : SlotRegs) (b : Bool) : (r.shiftIn b).lastn = r.lastn := rfl
@[simp] theorem SlotRegs.shiftIn_lastok (r : SlotRegs) (b : Bool) : (r.shiftIn b).lastok = r.lastok := rfl

@[simp] theorem SlotRegs.setLast_st (r : SlotRegs) (v : Code) (n : Count) : (r.setLast v n).st = r.st := rfl
@[simp] theorem SlotRegs.setLast_pend (r : SlotRegs) (v : Code) (n : Count) : (r.setLast v n).pend = r.pend := rfl
@[simp] theorem SlotRegs.setLast_bufv (r : SlotRegs) (v : Code) (n : Count) : (r.setLast v n).bufv = r.bufv := rfl
@[simp] theorem SlotRegs.setLast_bufn (r : SlotRegs) (v : Code) (n : Count) : (r.setLast v n).bufn = r.bufn := rfl
@[simp] theorem SlotRegs.setLast_lastv (r : SlotRegs) (v : Code) (n : Count) : (r.setLast v n).lastv = v := rfl
@[simp] theorem SlotRegs.setLast_lastn (r : SlotRegs) (v : Code) (n : Count) : (r.setLast v n).lastn = n := rfl
@[simp] theorem SlotRegs.setLast_lastok (r : SlotRegs) (v : Code) (n : Count) : (r.setLast v n).lastok = true := rfl

end Sys2Proof.Machine
end

