-- ==== Sys2Proof/Laws/Classifier.lean ====
section
/-! SUPPORT. The classifier's predicates as linear facts over the natural numbers, and the named constants as numbers. -/

namespace Sys2Proof.Machine

@[simp] theorem eofMult_eq : eofMult = 4 := rfl
@[simp] theorem maxBits_eq : maxBits = 64 := rfl

theorem absDiff_lt_iff (d w t : Nat) : absDiff d w < t ↔ d < w + t ∧ w < d + t := by
  unfold absDiff
  split <;> omega

theorem matchDur_iff (d w t : Nat) : matchDur d w t = true ↔ d < w + t ∧ w < d + t := by
  rw [matchDur, decide_eq_true_iff, absDiff_lt_iff]

theorem matchDur_self (w t : Nat) (h : 1 ≤ t) : matchDur w w t = true := by
  rw [matchDur_iff]; omega

theorem matchDur_zero (d w : Nat) : matchDur d w 0 = false := by
  rw [← Bool.not_eq_true, matchDur_iff]; omega

/-- The nominal bit-0 symbol is bit 0, whatever the template, once some duration matches. -/
theorem sym_nominal_zero (t : Template) (h : 1 ≤ t.tol.toNat) : sym t t.short t.long = some false := by
  simp [sym, matchDur_self _ _ h]

theorem append_full (r : SlotRegs) (b : Bool) (h : r.bufn = 64) : r.append b = none :=
  if_pos h

theorem append_room (r : SlotRegs) (b : Bool) (h : r.bufn ≠ 64) : r.append b = some (r.shiftIn b) :=
  if_neg h

end Sys2Proof.Machine
end

