-- ==== Sys2Proof/Laws/Decode.lean ====
section
/-! SUPPORT. A command word is its seven fields: each field of a packed word reads back, a word is the pack of its fields, and `and` works field by field. With these a mask of R83 says which fields must be zero. -/

namespace Sys2Proof

section
variable (val : Code) (dur : Dur) (rsv : BitVec 8) (nb : Count) (lvl : BitVec 1) (slot : SlotNo) (op : BitVec 8)

theorem getLsbD_packWord (i : Nat) :
    BitVec.getLsbD (packWord val dur rsv nb lvl slot op) i =
      if i < 8 then op.getLsbD i else if i < 16 then slot.getLsbD (i - 8) else if i < 17 then lvl.getLsbD (i - 16)
      else if i < 24 then nb.getLsbD (i - 17) else if i < 32 then rsv.getLsbD (i - 24)
      else if i < 64 then dur.getLsbD (i - 32) else val.getLsbD (i - 64) := by
  have h : BitVec.getLsbD (packWord val dur rsv nb lvl slot op) i =
      BitVec.getLsbD (w := 64 + 32 + 8 + 7 + 1 + 8 + 8) (val ++ dur ++ rsv ++ nb ++ lvl ++ slot ++ op) i := rfl
  rw [h]
  simp only [BitVec.getLsbD_append]
  repeat' split
  all_goals first | rfl | omega

/-- A field that stands at bit `lo` of a packed word reads back. -/
theorem extract_packWord {w : Nat} (x : BitVec w) (lo : Nat)
    (h : ∀ i, i < w → BitVec.getLsbD (packWord val dur rsv nb lvl slot op) (lo + i) = x.getLsbD i) :
    BitVec.extractLsb' lo w (packWord val dur rsv nb lvl slot op) = x := by
  ext i hi
  rw [BitVec.getElem_extractLsb', h i hi, BitVec.getLsbD_eq_getElem hi]

@[simp] theorem packWord_op : CmdWord.op (packWord val dur rsv nb lvl slot op) = op :=
  extract_packWord _ _ _ _ _ _ _ _ _ fun i hi => by
    rw [getLsbD_packWord, if_pos (by omega), Nat.zero_add]

@[simp] theorem packWord_slot : CmdWord.slot (packWord val dur rsv nb lvl slot op) = slot :=
  extract_packWord _ _ _ _ _ _ _ _ _ fun i hi => by
    rw [getLsbD_packWord, if_neg (by omega), if_pos (by omega), Nat.add_sub_cancel_left]

@[simp] theorem packWord_lvl : CmdWord.lvl (packWord val dur rsv nb lvl slot op) = lvl :=
  extract_packWord _ _ _ _ _ _ _ _ _ fun i hi => by
    rw [getLsbD_packWord, if_neg (by omega), if_neg (by omega), if_pos (by omega), Nat.add_sub_cancel_left]

@[simp] theorem packWord_nb : CmdWord.nb (packWord val dur rsv nb lvl slot op) = nb :=
  extract_packWord _ _ _ _ _ _ _ _ _ fun i hi => by
    rw [getLsbD_packWord, if_neg (by omega), if_neg (by omega), if_neg (by omega), if_pos (by omega), Nat.add_sub_cancel_left]

@[simp] theorem packWord_rsv : CmdWord.rsv (packWord val dur rsv nb lvl slot op) = rsv :=
  extract_packWord _ _ _ _ _ _ _ _ _ fun i hi => by
    rw [getLsbD_packWord, if_neg (by omega), if_neg (by omega), if_neg (by omega), if_neg (by omega), if_pos (by omega),
      Nat.add_sub_cancel_left]

@[simp] theorem packWord_dur : CmdWord.dur (packWord val dur rsv nb lvl slot op) = dur :=
  extract_packWord _ _ _ _ _ _ _ _ _ fun i hi => by
    rw [getLsbD_packWord, if_neg (by omega), if_neg (by omega), if_neg (by omega), if_neg (by omega), if_neg (by omega),
      if_pos (by omega), Nat.add_sub_cancel_left]

@[simp] theorem packWord_val : CmdWord.val (packWord val dur rsv nb lvl slot op) = val :=
  extract_packWord _ _ _ _ _ _ _ _ _ fun i hi => by
    rw [getLsbD_packWord, if_neg (by omega), if_neg (by omega), if_neg (by omega), if_neg (by omega), if_neg (by omega),
      if_neg (by omega), Nat.add_sub_cancel_left]

end

theorem CmdWord.key_eq (w : CmdWord) : w.key = w.val.setWidth 32 := by
  ext i hi; simp [CmdWord.key, CmdWord.val, show i < 64 by omega]

theorem CmdWord.valHigh_eq (w : CmdWord) : w.valHigh = w.val.extractLsb' 32 32 := by
  ext i hi; simp [CmdWord.valHigh, CmdWord.val, show 32 + i < 64 by omega]; congr 1; omega

/-- A word is the pack of its fields. -/
theorem packWord_fields (w : CmdWord) : packWord w.val w.dur w.rsv w.nb w.lvl w.slot w.op = w := by
  refine BitVec.eq_of_getLsbD_eq fun i hi => ?_
  rw [getLsbD_packWord]
  simp only [CmdWord.val, CmdWord.dur, CmdWord.rsv, CmdWord.nb, CmdWord.lvl, CmdWord.slot, CmdWord.op, BitVec.getLsbD_extractLsb']
  repeat' split
  all_goals simp_all
  all_goals omega

theorem packWord_and (v v' : Code) (d d' : Dur) (r r' : BitVec 8) (n n' : Count) (l l' : BitVec 1) (p p' : SlotNo)
    (o o' : BitVec 8) :
    packWord v d r n l p o &&& packWord v' d' r' n' l' p' o' =
      packWord (v &&& v') (d &&& d') (r &&& r') (n &&& n') (l &&& l') (p &&& p') (o &&& o') := by
  refine BitVec.eq_of_getLsbD_eq fun i hi => ?_
  simp only [BitVec.getLsbD_and, getLsbD_packWord]
  repeat' split
  all_goals rfl

theorem packWord_inj {v v' : Code} {d d' : Dur} {r r' : BitVec 8} {n n' : Count} {l l' : BitVec 1} {p p' : SlotNo}
    {o o' : BitVec 8} (h : packWord v d r n l p o = packWord v' d' r' n' l' p' o') :
    v = v' ∧ d = d' ∧ r = r' ∧ n = n' ∧ l = l' ∧ p = p' ∧ o = o' :=
  ⟨by simpa using congrArg CmdWord.val h, by simpa using congrArg CmdWord.dur h, by simpa using congrArg CmdWord.rsv h,
    by simpa using congrArg CmdWord.nb h, by simpa using congrArg CmdWord.lvl h, by simpa using congrArg CmdWord.slot h,
    by simpa using congrArg CmdWord.op h⟩

/-! ### A whole field under its mask is the field -/

@[simp] theorem and_all8 (x : BitVec 8) : x &&& 255#8 = x := BitVec.and_allOnes
@[simp] theorem and_all7 (x : BitVec 7) : x &&& 127#7 = x := BitVec.and_allOnes
@[simp] theorem and_all1 (x : BitVec 1) : x &&& 1#1 = x := BitVec.and_allOnes
@[simp] theorem and_all32 (x : BitVec 32) : x &&& 4294967295#32 = x := BitVec.and_allOnes
@[simp] theorem and_all64 (x : BitVec 64) : x &&& 18446744073709551615#64 = x := BitVec.and_allOnes

/-- The upper half of a value under its mask is zero just when it is zero. -/
theorem and_high_eq_zero (w : CmdWord) : w.val &&& 0xFFFFFFFF00000000 = 0 ↔ w.valHigh = 0 := by
  rw [CmdWord.valHigh_eq]
  have hm : ∀ i, i < 64 → BitVec.getLsbD (0xFFFFFFFF00000000#64) i = decide (32 ≤ i) := by decide
  constructor
  · intro h
    refine BitVec.eq_of_getLsbD_eq fun i hi => ?_
    have hb := congrArg (fun x => BitVec.getLsbD x (32 + i)) h
    simpa [hm (32 + i) (by omega), hi] using hb
  · intro h
    refine BitVec.eq_of_getLsbD_eq fun i hi => ?_
    rcases Nat.lt_or_ge i 32 with h32 | h32
    · simp [hm i hi, Nat.not_le.mpr h32]
    · have hb := congrArg (fun x => BitVec.getLsbD x (i - 32)) h
      simp only [BitVec.getLsbD_extractLsb', Nat.add_sub_cancel' h32] at hb
      simpa [hm i hi, h32, show i - 32 < 32 by omega] using hb

/-- A word under a mask of fields is an opcode's pattern just when each masked field is zero and OP is the opcode. -/
theorem and_packWord_eq_iff (w : CmdWord) (v : Code) (d : Dur) (r : BitVec 8) (n : Count) (l : BitVec 1) (p : SlotNo)
    (o : BitVec 8) :
    w &&& packWord v d r n l p 0xFF = packWord 0 0 0 0 0 0 o ↔
      w.val &&& v = 0 ∧ w.dur &&& d = 0 ∧ w.rsv &&& r = 0 ∧ w.nb &&& n = 0 ∧ w.lvl &&& l = 0 ∧ w.slot &&& p = 0 ∧
        w.op = o := by
  constructor
  · intro h
    rw [← packWord_fields w, packWord_and] at h
    simpa using packWord_inj h
  · rintro ⟨h1, h2, h3, h4, h5, h6, h7⟩
    rw [← packWord_fields w, packWord_and, h1, h2, h3, h4, h5, h6, show w.op &&& 0xFF = w.op from and_all8 w.op, h7]

@[simp] theorem Level.ofBit_toBit (l : Level) : Level.ofBit l.toBit = l := by cases l <;> rfl

@[simp] theorem Level.toBit_ofBit (b : BitVec 1) : (Level.ofBit b).toBit = b := by revert b; decide

@[simp] theorem key_setWidth (key : BitVec 32) : (key.setWidth 64).setWidth 32 = key := by
  ext i hi; simp

end Sys2Proof
end

