-- ==== Sys2Proof/Laws/Ops.lean ====
section
/-! SUPPORT. What each shared operation can do, said once: the register accessors, the checks on operands, the response and the delivery of events. -/

namespace Sys2Proof.Machine

/-! ### Registers: a read after a write -/

theorem State.reg_setReg_self (s : State) (p : Nat) (r : SlotRegs) (h : p < s.block.slots.length) :
    (s.setReg p r).reg p = r := by
  simp [State.reg, State.setReg, List.getD_eq_getElem?_getD, List.getElem?_set_self h]

theorem State.reg_setReg_ne (s : State) (p q : Nat) (r : SlotRegs) (h : q ≠ p) :
    (s.setReg p r).reg q = s.reg q := by
  simp [State.reg, State.setReg, List.getD_eq_getElem?_getD, List.getElem?_set_ne (Ne.symm h)]

theorem State.reg_setRegs (s : State) (q : Nat) (rs : List SlotRegs) :
    (s.setRegs rs).reg q = rs.getD q SlotRegs.reset := rfl

/-! ### The encoder buffer: written entries, and the entries after them -/

theorem State.writeEnc_length (s : State) (ps : List Pulse) (h : ps.length ≤ s.block.encBuf.length) :
    (s.writeEnc ps).block.encBuf.length = s.block.encBuf.length := by
  simp; omega

theorem State.encEntry_writeEnc_lt (s : State) (ps : List Pulse) (i : Nat) (h : i < ps.length) :
    (s.writeEnc ps).encEntry i = ps[i] := by
  simp [State.encEntry, List.getD_eq_getElem?_getD, List.getElem?_append_left h, h]

theorem State.encEntry_writeEnc_ge (s : State) (ps : List Pulse) (i : Nat) (h : ps.length ≤ i) :
    (s.writeEnc ps).encEntry i = s.encEntry i := by
  simp [State.encEntry, List.getD_eq_getElem?_getD, List.getElem?_append_right h, Nat.add_sub_cancel' h]

/-! ### Checks and responses -/

theorem respond_next {st : Status} {f : Payload} {s s' : State} (h : respond st f s = .next s') :
    s' = s.emit (.response ⟨st, f⟩) := by
  simpa [respond] using h.symm

theorem withSlot_lt {p : SlotNo} {s : State} {k : Result} (h : p.toNat < s.cfg.nDec) : withSlot p s k = k := by
  simp [withSlot, h]

theorem withSlot_ge {p : SlotNo} {s : State} {k : Result} (h : s.cfg.nDec ≤ p.toNat) :
    withSlot p s k = reject .badSlot s := by
  simp [withSlot, Nat.not_lt.mpr h]

theorem withCount_le {n : Count} {s : State} {k : Result} (h : n.toNat ≤ 64) : withCount n s k = k := by
  simp [withCount, maxBits, h]

theorem withCount_gt {n : Count} {s : State} {k : Result} (h : 64 < n.toNat) :
    withCount n s k = reject .badNb s := by
  simp [withCount, maxBits, Nat.not_le.mpr h]

/-! ### Delivery of events -/

/-- The state after all of some events have been delivered. -/
def State.delivered (s : State) (es : List Event) : State :=
  { s with sink := s.sink.drop es.length, trace := s.trace ++ es.map PortRecord.event }

@[simp] theorem State.delivered_cfg (s : State) (es : List Event) : (s.delivered es).cfg = s.cfg := rfl
@[simp] theorem State.delivered_block (s : State) (es : List Event) : (s.delivered es).block = s.block := rfl
@[simp] theorem State.delivered_cmds (s : State) (es : List Event) : (s.delivered es).cmds = s.cmds := rfl
@[simp] theorem State.delivered_sink (s : State) (es : List Event) : (s.delivered es).sink = s.sink.drop es.length := rfl
@[simp] theorem State.delivered_trace (s : State) (es : List Event) :
    (s.delivered es).trace = s.trace ++ es.map PortRecord.event := rfl
@[simp] theorem State.tpl_delivered (s : State) (es : List Event) (q : Nat) : (s.delivered es).tpl q = s.tpl q := rfl
@[simp] theorem State.reg_delivered (s : State) (es : List Event) (q : Nat) : (s.delivered es).reg q = s.reg q := rfl

/-- Delivery ends in one way: every event accepted, in order. -/
theorem deliver_next {es : List Event} {s s' : State} (h : deliver es s = .next s') : s' = s.delivered es := by
  induction es generalizing s with
  | nil => simp [deliver] at h; simp [← h, State.delivered]
  | cons e es ih =>
    rw [deliver] at h
    split at h
    next hs => simpa [State.delivered, State.emit, hs] using ih h
    next rest hs => simpa [State.delivered, State.emit, hs] using ih h
    all_goals cases h

theorem deliver_not_refused (es : List Event) (s : State) (x : Refusal) : deliver es s ≠ .refused x := by
  induction es generalizing s with
  | nil => simp [deliver]
  | cons e es ih => rw [deliver]; split <;> simp [ih]

/-- A sink that accepts every event takes them all. -/
theorem deliver_accepts {es : List Event} {s : State} (h : s.sinkAccepts) : deliver es s = .next (s.delivered es) := by
  induction es generalizing s with
  | nil => simp [deliver, State.delivered]
  | cons e es ih =>
    rw [deliver]
    split
    next hs =>
      rw [ih (by simp [State.sinkAccepts, State.emit, hs])]; simp [State.delivered, State.emit, hs]
    next rest hs =>
      rw [ih fun x hx => h x (by simp [hs]; exact .inr hx)]; simp [State.delivered, State.emit, hs]
    next hs => simpa using h .never (by simp [hs])
    next hs => simpa using h .reenter (by simp [hs])

theorem finish_next {es : List Event} {s s' : State} (h : finish es s = .next s') :
    s' = (s.delivered es).emit (.response ⟨.ok, .empty⟩) := by
  unfold finish at h
  split at h
  next t ht => rw [deliver_next ht] at h; exact respond_next h
  all_goals cases h

theorem finish_accepts {es : List Event} {s : State} (h : s.sinkAccepts) :
    finish es s = .next ((s.delivered es).emit (.response ⟨.ok, .empty⟩)) := by
  simp [finish, deliver_accepts h, respond]

theorem finish_nil (s : State) : finish [] s = .next (s.emit (.response ⟨.ok, .empty⟩)) := rfl

/-! ### The pass over the slots -/

theorem stepSlots_length (lvl : Level) (d : Dur) (p : Nat) (ts : List Template) (rs : List SlotRegs) :
    (stepSlots lvl d p ts rs).1.length = rs.length := by
  induction rs generalizing p ts with
  | nil => cases ts <;> simp [stepSlots]
  | cons r rs ih => cases ts <;> simp [stepSlots, ih]

/-- Each slot of the pass ends as its own `Step` leaves it. -/
theorem stepSlots_get (lvl : Level) (d : Dur) (p q : Nat) (ts : List Template) (rs : List SlotRegs) (t : Template)
    (r : SlotRegs) (ht : ts[q]? = some t) (hr : rs[q]? = some r) :
    (stepSlots lvl d p ts rs).1[q]? = some (stepSlot t (BitVec.ofNat 8 (p + q)) lvl d r).1 := by
  induction q generalizing p ts rs with
  | zero =>
    cases ts <;> cases rs <;> simp_all [stepSlots]
  | succ q ih =>
    cases ts with
    | nil => simp at ht
    | cons t' ts =>
      cases rs with
      | nil => simp at hr
      | cons r' rs =>
        simp only [stepSlots, List.getElem?_cons_succ] at *
        rw [ih (p + 1) ts rs ht hr, Nat.add_right_comm, Nat.add_assoc]

/-! ### The encoded sequence -/

@[simp] theorem symbolPulses_length (t : Template) (b : Bool) : (symbolPulses t b).length = 2 := by
  cases b <;> rfl

@[simp] theorem encodePulses_length (t : Template) (v : Code) (n : Nat) : (encodePulses t v n).length = 2 + 2 * n := by
  simp [encodePulses, List.length_flatMap]; omega

end Sys2Proof.Machine
end

