-- ==== Sys2Proof/Laws/Exec.lean ====
section
/-! SUPPORT. What a command, and what a step, can do, said once: it may write the block, it takes as many answers of the sink as it raises events, and it puts its events and then one response on the trace. -/

namespace Sys2Proof.Machine

theorem withSlot_next {p : SlotNo} {s s' : State} {k : Result} (h : withSlot p s k = .next s') :
    (p.toNat < s.cfg.nDec ∧ k = .next s') ∨
      (s.cfg.nDec ≤ p.toNat ∧ s' = s.emit (.response ⟨.badSlot, .empty⟩)) := by
  unfold withSlot at h
  split at h
  next hp => exact .inl ⟨hp, h⟩
  next hp => exact .inr ⟨Nat.le_of_not_lt hp, respond_next h⟩

theorem withCount_next {n : Count} {s s' : State} {k : Result} (h : withCount n s k = .next s') :
    (n.toNat ≤ 64 ∧ k = .next s') ∨ (64 < n.toNat ∧ s' = s.emit (.response ⟨.badNb, .empty⟩)) := by
  unfold withCount at h
  split at h
  next hn => exact .inl ⟨hn, h⟩
  next hn => exact .inr ⟨Nat.lt_of_not_le hn, respond_next h⟩

/-- `s` with another block, after some events and a response. -/
def State.after (s : State) (b : Block) (es : List Event) (r : Response) : State :=
  { s with
    block := b
    sink := s.sink.drop es.length
    trace := s.trace ++ es.map PortRecord.event ++ [.response r] }

@[simp] theorem State.after_cfg (s : State) (b : Block) (es : List Event) (r : Response) : (s.after b es r).cfg = s.cfg := rfl
@[simp] theorem State.after_block (s : State) (b : Block) (es : List Event) (r : Response) : (s.after b es r).block = b := rfl
@[simp] theorem State.after_cmds (s : State) (b : Block) (es : List Event) (r : Response) : (s.after b es r).cmds = s.cmds := rfl
@[simp] theorem State.after_sink (s : State) (b : Block) (es : List Event) (r : Response) :
    (s.after b es r).sink = s.sink.drop es.length := rfl
@[simp] theorem State.after_trace (s : State) (b : Block) (es : List Event) (r : Response) :
    (s.after b es r).trace = s.trace ++ es.map PortRecord.event ++ [.response r] := rfl

/-- Outcome of a command as `after`, with the block untouched unless the status is OK. -/
def State.Answers (s s' : State) : Prop :=
  ∃ b es r, s' = s.after b es r ∧ (r.status ≠ .ok → es = [] ∧ b = s.block)

theorem finish_answers {es : List Event} {s t s' : State} (h : finish es t = .next s')
    (ht : t = { s with block := t.block }) : s.Answers s' := by
  refine ⟨t.block, es, ⟨.ok, .empty⟩, ?_, fun hr => absurd rfl hr⟩
  rw [finish_next h, ht]; simp [State.emit, State.delivered, State.after]

theorem respond_answers {st : Status} {f : Payload} {s t s' : State} (h : respond st f t = .next s')
    (ht : t = { s with block := t.block }) (hb : st ≠ .ok → t.block = s.block) : s.Answers s' := by
  refine ⟨t.block, [], ⟨st, f⟩, ?_, fun hr => ⟨rfl, hb hr⟩⟩
  rw [respond_next h, ht]; simp [State.emit, State.after]

theorem emit_answers {s s' : State} {r : Response} (h : s' = s.emit (.response r)) : s.Answers s' :=
  ⟨s.block, [], r, by simp [h, State.emit, State.after], fun _ => ⟨rfl, rfl⟩⟩

/-- The inversion lemma of exec. -/
theorem exec_answers {i : Instr} {s s' : State} (h : exec i s = .next s') : s.Answers s' := by
  cases i with
  | pulse p l d =>
    rcases withSlot_next h with ⟨-, h⟩ | ⟨-, h⟩
    · exact finish_answers h rfl
    · exact emit_answers h
  | pulseAll l d => exact finish_answers h rfl
  | reset p =>
    rcases withSlot_next h with ⟨-, h⟩ | ⟨-, h⟩
    · exact respond_answers h rfl fun hn => absurd rfl hn
    · exact emit_answers h
  | resetAll => exact respond_answers h rfl fun hn => absurd rfl hn
  | encode p n v =>
    rcases withSlot_next h with ⟨-, h⟩ | ⟨-, h⟩
    · rcases withCount_next h with ⟨-, h⟩ | ⟨-, h⟩
      · split at h
        · exact emit_answers (respond_next h)
        · exact respond_answers h rfl fun hn => absurd rfl hn
      · exact emit_answers h
    · exact emit_answers h
  | readEnc i =>
    simp only [exec, execReadEnc] at h
    split at h <;> exact emit_answers (respond_next h)
  | reverse n v =>
    rcases withCount_next h with ⟨-, h⟩ | ⟨-, h⟩
    · exact emit_answers (respond_next h)
    · exact emit_answers h
  | loadLast p n k =>
    rcases withSlot_next h with ⟨-, h⟩ | ⟨-, h⟩
    · rcases withCount_next h with ⟨-, h⟩ | ⟨-, h⟩
      · exact respond_answers h rfl fun hn => absurd rfl hn
      · exact emit_answers h
    · exact emit_answers h
  | readLast p =>
    rcases withSlot_next h with ⟨-, h⟩ | ⟨-, h⟩
    · exact emit_answers (respond_next h)
    · exact emit_answers h
  | readState p =>
    rcases withSlot_next h with ⟨-, h⟩ | ⟨-, h⟩
    · exact emit_answers (respond_next h)
    · exact emit_answers h
  | readTemplate p =>
    rcases withSlot_next h with ⟨-, h⟩ | ⟨-, h⟩
    · exact emit_answers (respond_next h)
    · exact emit_answers h

/-- The inversion lemma of step: the block waits, or it answers one word. -/
theorem step_answers {s s' : State} (h : step s = .next s') :
    (s.cmds = [] ∧ s' = s) ∨
      ∃ w rest, s.cmds = w :: rest ∧ { s with cmds := rest }.Answers s' ∧
        ((∃ i, decode w = .ok i ∧ exec i { s with cmds := rest } = .next s') ∨
          ((∃ e, decode w = .error e) ∧ s' = { s with cmds := rest }.emit (.response ⟨.illegal, .empty⟩))) := by
  unfold step stepPort at h
  split at h
  next hc =>
    unfold acceptCommand at h
    split at h
    next hw => cases h; exact .inl ⟨hw, rfl⟩
    next w rest hw =>
      unfold runWord at h
      split at h
      next i hd => exact .inr ⟨w, rest, hw, exec_answers h, .inl ⟨i, hd, h⟩⟩
      next e hd => exact .inr ⟨w, rest, hw, emit_answers (respond_next h), .inr ⟨⟨e, hd⟩, respond_next h⟩⟩
  next hc => cases h

end Sys2Proof.Machine
end

