-- ==== Sys2Proof/Laws/WellFormed.lean ====
section
/-! SUPPORT. The checks as propositions. -/

namespace Sys2Proof

theorem Template.wf_iff (t : Template) :
    t.wf = true ↔ 1 ≤ t.k.toNat ∧ t.minb.toNat ≤ 64 ∧ t.short.toNat * t.k.toNat ≤ 2 ^ 32 - 1 := decide_eq_true_iff

theorem Config.wf_iff (c : Config) :
    c.wf = true ↔ 1 ≤ c.nDec ∧ c.nDec ≤ 256 ∧ 2 ≤ c.encCap ∧ ∀ t ∈ c.templates, t.wf = true := decide_eq_true_iff

theorem HostConfig.wf_iff (h : HostConfig) (c : Config) :
    h.wf c = true ↔ h.names.length = c.nDec ∧ (∀ n ∈ h.names, n.length ≤ h.nameMax) ∧ h.names.Nodup ∧
      ∀ n ∈ h.names, '\n' ∉ n := decide_eq_true_iff

end Sys2Proof
end

