-- ==== Sys2Proof/Laws/Environment.lean ====
section
/-! SUPPORT. What the host reads from a trace, the name and the callback of an event, the DUR of a captured interval, and digits read back. -/

namespace Sys2Proof.Machine

/-! ### Reading a trace -/

@[simp] theorem eventsOf_nil : eventsOf [] = [] := rfl

@[simp] theorem eventsOf_append (a b : List PortRecord) : eventsOf (a ++ b) = eventsOf a ++ eventsOf b :=
  List.filterMap_append

@[simp] theorem eventsOf_event (es : List Event) : eventsOf (es.map PortRecord.event) = es := by
  simp [eventsOf, List.filterMap_map]

@[simp] theorem eventsOf_response (r : Response) : eventsOf [.response r] = [] := rfl

@[simp] theorem responsesOf_append (a b : List PortRecord) : responsesOf (a ++ b) = responsesOf a ++ responsesOf b :=
  List.filterMap_append

@[simp] theorem responsesOf_event (es : List Event) : responsesOf (es.map PortRecord.event) = [] := by
  simp [responsesOf, List.filterMap_map]

@[simp] theorem responsesOf_response (r : Response) : responsesOf [.response r] = [r] := rfl

/-- A command adds its events. -/
theorem eventsOf_after (s : State) (b : Block) (es : List Event) (r : Response) :
    eventsOf (s.after b es r).trace = eventsOf s.trace ++ es := by simp

/-- A command adds one response. -/
theorem responsesOf_after (s : State) (b : Block) (es : List Event) (r : Response) :
    responsesOf (s.after b es r).trace = responsesOf s.trace ++ [r] := by simp

/-! ### Names and callbacks -/

/-- Every slot of the configuration has a name (R32). -/
theorem eventName_of_wf {h : HostConfig} {c : Config} {e : Event} (hw : h.wf c = true) (he : e.slot.toNat < c.nDec) :
    ∃ name, eventName h e = some name := by
  have hl := ((HostConfig.wf_iff h c).1 hw).1
  exact ⟨h.names[e.slot.toNat]'(by omega), List.getElem?_eq_getElem _⟩

theorem foundCallback_found {γ : Type} {h : HostConfig} {e : Event} {name : Text} (ctx : γ) (hk : e.kind = .found)
    (hn : eventName h e = some name) : foundCallback h ctx e = some ⟨name, e.value, e.nbits, ctx⟩ := by
  simp [foundCallback, hk, hn]

theorem foundCallback_overflow {γ : Type} {h : HostConfig} {e : Event} (ctx : γ) (hk : e.kind = .overflow) :
    foundCallback h ctx e = none := by
  simp [foundCallback, hk]

/-! ### Capture -/

/-- An interval that fits DUR is captured exactly, whatever `DUR_OVERRANGE` is. -/
theorem captureDur_fits (overrange : Nat → Dur) {us : Nat} (h : us < 2 ^ 32) :
    (captureDur overrange us).toNat = us := by
  rw [captureDur, if_pos h, BitVec.toNat_ofNat, Nat.mod_eq_of_lt h]

/-- With a clamping source an end-of-frame stays one, where the threshold fits DUR (R355, log entry 17). -/
theorem captureDur_clamp_isEOF (t : Template) {us : Nat} (ht : t.short.toNat * 4 < 2 ^ 32) (h : t.short.toNat * 4 ≤ us) :
    isEOF t (captureDur clampOverrange us) = true := by
  rw [isEOF, decide_eq_true_iff, eofMult_eq]
  rcases Nat.lt_or_ge us (2 ^ 32) with hu | hu
  · rw [captureDur_fits _ hu]; exact h
  · rw [captureDur, if_neg (Nat.not_lt.mpr hu), clampOverrange, show BitVec.toNat (0xFFFFFFFF : Dur) = 4294967295 by decide]
    omega

/-! ### Digits -/

/-- A character is a decimal digit just when it lies from `0` to `9` (R251). -/
theorem digitValue_decRanges (c : Char) (x : Nat) :
    digitValue c decRanges = some x ↔ ('0' ≤ c ∧ c ≤ '9') ∧ x = c.toNat - 48 := by
  simp only [decRanges, digitValue]
  split <;> simp_all [eq_comm]

/-- What `hex8` writes reads back (R241, R252). -/
theorem digitValue_hex_digitChar : ∀ n, n < 16 → digitValue (digitChar n) hexRanges = some n := by decide

/-- A `_` after the first digit only groups (log entry 18). -/
@[simp] theorem readGrouped_group (base : Nat) (ranges : List DigitRange) (d : Char) (a b : Text) :
    readGrouped base ranges (d :: (a ++ '_' :: b)) = readGrouped base ranges (d :: (a ++ b)) := by
  simp [readGrouped]

/-- What `dec` writes reads back (R242, R251). -/
theorem digitValue_dec_digitChar : ∀ n, n < 10 → digitValue (digitChar n) decRanges = some n := by decide

end Sys2Proof.Machine
end

