-- ==== Sys2Proof/Laws/PerInstr.lean ====
section
/-! SUPPORT. A family over all instructions: the word of a command matches its row of the table of R83, whatever its operands. -/

namespace Sys2Proof.Laws.RowMatch

/-- The word of `i`, under its opcode's mask, is its opcode's match (R83). -/
def Statement (i : Instr) : Prop := encode i &&& i.opcode.mask = i.opcode.pattern

theorem pulse (p : SlotNo) (lvl : Level) (d : Dur) : Statement (.pulse p lvl d) := by
  show packWord _ _ _ _ _ _ _ &&& packWord 0xFFFFFFFFFFFFFFFF 0 0xFF 0x7F 0 0 0xFF = packWord 0 0 0 0 0 0 1
  simp [packWord_and]

theorem pulseAll (lvl : Level) (d : Dur) : Statement (.pulseAll lvl d) := by
  show packWord _ _ _ _ _ _ _ &&& packWord 0xFFFFFFFFFFFFFFFF 0 0xFF 0x7F 0 0xFF 0xFF = packWord 0 0 0 0 0 0 2
  simp [packWord_and]

theorem reset (p : SlotNo) : Statement (.reset p) := by
  show packWord _ _ _ _ _ _ _ &&& packWord 0xFFFFFFFFFFFFFFFF 0xFFFFFFFF 0xFF 0x7F 1 0 0xFF = packWord 0 0 0 0 0 0 3
  simp [packWord_and]

theorem resetAll : Statement .resetAll := by unfold Statement; decide

theorem encode (p : SlotNo) (n : Count) (v : Code) : Statement (.encode p n v) := by
  show packWord _ _ _ _ _ _ _ &&& packWord 0 0xFFFFFFFF 0xFF 0 1 0 0xFF = packWord 0 0 0 0 0 0 5
  simp [packWord_and]

theorem readEnc (i : BitVec 32) : Statement (.readEnc i) := by
  show packWord _ _ _ _ _ _ _ &&& packWord 0xFFFFFFFFFFFFFFFF 0 0xFF 0x7F 1 0xFF 0xFF = packWord 0 0 0 0 0 0 6
  simp [packWord_and]

theorem reverse (n : Count) (v : Code) : Statement (.reverse n v) := by
  show packWord _ _ _ _ _ _ _ &&& packWord 0 0xFFFFFFFF 0xFF 0 1 0xFF 0xFF = packWord 0 0 0 0 0 0 7
  simp [packWord_and]

theorem loadLast (p : SlotNo) (n : Count) (key : BitVec 32) : Statement (.loadLast p n key) := by
  have h : (key.setWidth 64) &&& (0xFFFFFFFF00000000 : Code) = 0 := by
    show (key.setWidth 64) &&& 0xFFFFFFFF00000000#64 = 0
    ext i hi
    rcases Nat.lt_or_ge i 32 with h | h
    · have : BitVec.getLsbD 0xFFFFFFFF00000000#64 i = false := by
        revert i; decide
      simp [← BitVec.getLsbD_eq_getElem, this]
    · simp [h]
  show packWord _ _ _ _ _ _ _ &&& packWord 0xFFFFFFFF00000000 0xFFFFFFFF 0xFF 0 1 0 0xFF = packWord 0 0 0 0 0 0 8
  rw [packWord_and, h]; simp

theorem readLast (p : SlotNo) : Statement (.readLast p) := by
  show packWord _ _ _ _ _ _ _ &&& packWord 0xFFFFFFFFFFFFFFFF 0xFFFFFFFF 0xFF 0x7F 1 0 0xFF = packWord 0 0 0 0 0 0 9
  simp [packWord_and]

theorem readState (p : SlotNo) : Statement (.readState p) := by
  show packWord _ _ _ _ _ _ _ &&& packWord 0xFFFFFFFFFFFFFFFF 0xFFFFFFFF 0xFF 0x7F 1 0 0xFF = packWord 0 0 0 0 0 0 10
  simp [packWord_and]

theorem readTemplate (p : SlotNo) : Statement (.readTemplate p) := by
  show packWord _ _ _ _ _ _ _ &&& packWord 0xFFFFFFFFFFFFFFFF 0xFFFFFFFF 0xFF 0x7F 1 0 0xFF = packWord 0 0 0 0 0 0 11
  simp [packWord_and]

end Sys2Proof.Laws.RowMatch
end

