-- ==== Sys2Proof/Tests/Slice0.lean ====
section
/-! SUPPORT. Small tests. Every expected result is taken from `spec/30_encoding.md` R92, from the examples of the rules, or from the vectors of `spec/95_test_vectors.md` (their ids stand in the comments), never from the model. -/

namespace Sys2Proof.Tests

open Sys2Proof.Machine

/-! ### Helpers -/

/-- The next state of an outcome. -/
def nextState : Result → Option State
  | .next s => some s
  | .fault _ => none
  | .refused _ => none

/-- The registers of slot `p` after an outcome. -/
def regsAfter (o : Result) (p : Nat) : Option SlotRegs := (nextState o).map fun s => s.reg p

/-- What the host receives in an outcome from an empty trace. -/
def traceAfter (o : Result) : Option (List PortRecord) := (nextState o).map fun s => s.trace

/-- A block of given templates with `ENC_CAP = 26`, after reset. -/
def blockOf (ts : List Template) : State := State.powerOn ⟨ts, 26⟩

/-- Template B of `spec/95_test_vectors.md`. -/
def templateB : Template := ⟨320, 640, 150, 36, 12⟩

/-- Slot 0 with template A in a state `ST / PEND / BUFN / BUFV`. -/
def slotIn (st : DecState) (pend : Dur) (bufn : Count) (bufv : Code) : State :=
  (blockOf [Template.templateA]).setReg 0 ⟨st, pend, bufv, bufn, 0, 0, false⟩

/-! ### Ill-formed terms are refused by the checks (R7, R31, R87) -/

theorem test_wf_template_A : Template.templateA.wf = true := by decide
theorem test_wf_tolerance_zero_and_long_below_short : Template.wf ⟨700, 300, 0, 36, 12⟩ = true := by decide
theorem test_wf_refuses_multiplier_zero : Template.wf ⟨700, 1400, 200, 0, 12⟩ = false := by decide
theorem test_wf_refuses_minb_65 : Template.wf ⟨700, 1400, 200, 36, 65⟩ = false := by decide
theorem test_wf_refuses_header_that_does_not_fit : Template.wf ⟨0x80000000, 1400, 200, 2, 12⟩ = false := by decide
theorem test_wf_programs : Config.ofPrograms.wf = true := by decide
theorem test_wf_refuses_no_slot : Config.wf ⟨[], 26⟩ = false := by decide
theorem test_wf_refuses_257_slots (t : Template) : Config.wf ⟨List.replicate 257 t, 26⟩ = false := by
  have h : Config.nDec ⟨List.replicate 257 t, 26⟩ = 257 := List.length_replicate
  rw [← Bool.not_eq_true, Config.wf_iff, h]
  omega
theorem test_wf_refuses_capacity_one : Config.wf ⟨[Template.templateA], 1⟩ = false := by decide
theorem test_wf_refuses_config_with_bad_template : Config.wf ⟨[Template.templateA, ⟨1, 1, 1, 0, 1⟩], 26⟩ = false := by decide
theorem test_wf_refuses_slot_out_of_range : Instr.wf Config.ofPrograms (.reset 1) = false := by decide
theorem test_wf_refuses_count_65 : Instr.wf Config.ofPrograms (.reverse 65 1) = false := by decide
theorem test_wf_accepts_encode : Instr.wf Config.ofPrograms (.encode 0 64 1) = true := by decide
theorem test_wf_refuses_name_missing : HostConfig.wf ⟨[], 16⟩ Config.ofPrograms = false := by decide
theorem test_wf_refuses_name_too_long : HostConfig.wf ⟨["abc".toList], 2⟩ Config.ofPrograms = false := by decide
theorem test_wf_refuses_equal_names :
    HostConfig.wf ⟨[['a'], ['a']], 16⟩ ⟨[Template.templateA, templateB], 26⟩ = false := by decide
theorem test_wf_refuses_line_feed_in_name : HostConfig.wf ⟨[['a', '\n']], 16⟩ Config.ofPrograms = false := by decide

/-! ### Decoding: the words of R92, written out, and one word of each family bit by bit (R81) -/

theorem test_decode_pulse_low : (decode 0x00000000_00000000_00006270_00000001).toOption = some (.pulse 0 .low 25200) := by decide
theorem test_decode_pulse_slot_one : (decode 0x00000000_00000000_000002BC_00010101).toOption = some (.pulse 1 .high 700) := by decide
theorem test_decode_pulse_all : (decode 0x00000000_00000000_00006270_00000002).toOption = some (.pulseAll .low 25200) := by decide
theorem test_decode_reset : (decode 0x00000000_00000000_00000000_00000203).toOption = some (.reset 2) := by decide
theorem test_decode_reset_all : (decode 0x00000000_00000000_00000000_00000004).toOption = some .resetAll := by decide
theorem test_decode_encode : (decode 0x00000000_00000B24_00000000_00180005).toOption = some (.encode 0 12 0xB24) := by decide
theorem test_decode_read_enc : (decode 0x00000000_00000000_00000003_00000006).toOption = some (.readEnc 3) := by decide
theorem test_decode_reverse : (decode 0x00000000_00000B24_00000000_00180007).toOption = some (.reverse 12 0xB24) := by decide
theorem test_decode_load_last : (decode 0x00000000_00000B24_00000000_00180008).toOption = some (.loadLast 0 12 0xB24) := by decide
theorem test_decode_read_last : (decode 0x00000000_00000000_00000000_00000009).toOption = some (.readLast 0) := by decide
theorem test_decode_read_state : (decode 0x00000000_00000000_00000000_0000000A).toOption = some (.readState 0) := by decide
theorem test_decode_read_template : (decode 0x00000000_00000000_00000000_0000000B).toOption = some (.readTemplate 0) := by decide

/-- VAL, DUR, RSV, NB, LVL, SLOT, OP of `PULSE 5, H, 3` written as bits (R81). -/
theorem test_decode_pulse_bits :
    (decode ((0#64) ++ (0b00000000000000000000000000000011#32) ++ (0b00000000#8) ++ (0b0000000#7) ++ (0b1#1) ++
      (0b00000101#8) ++ (0b00000001#8))).toOption = some (.pulse 5 .high 3) := by decide

/-- `ENCODE 2, 3, 0b101` written as bits (R81). -/
theorem test_decode_encode_bits :
    (decode ((0b101#64) ++ (0#32) ++ (0b00000000#8) ++ (0b0000011#7) ++ (0b0#1) ++
      (0b00000010#8) ++ (0b00000101#8))).toOption = some (.encode 2 3 5) := by decide

/-- V-S1, V-S2, V-S3, V-S4, V-S9, V-S11, V-L6: illegal words, with the reason. -/
theorem test_decode_zero_word : decode 0 = .error .reservedOpcode := by decide
theorem test_decode_opcode_0C : decode 0x0C = .error .reservedOpcode := by decide
theorem test_decode_pulse_with_nb : decode 0x00000000_00000000_000002BC_00020001 = .error .nonZeroReservedBits := by decide
theorem test_decode_pulse_with_rsv : decode 0x00000000_00000000_000002BC_01010001 = .error .nonZeroReservedBits := by decide
theorem test_decode_reverse_with_slot : decode 0x00000000_00000B24_00000000_00180107 = .error .nonZeroReservedBits := by decide
theorem test_decode_reset_all_with_dur : decode 0x00000000_00000000_00000001_00000004 = .error .nonZeroReservedBits := by decide
theorem test_decode_load_last_with_wide_key : decode 0x00000001_00000B24_00000000_00180008 = .error .nonZeroReservedBits := by decide

/-- R62: `RESET 2` as bytes, least significant first; 15 bytes are no command. -/
theorem test_decode_bytes : decodeBytes ([0x03, 0x02] ++ List.replicate 14 0) = .ok (.reset 2) := by decide
theorem test_decode_bytes_short : decodeBytes (List.replicate 15 0) = .error .notSixteenBytes := by decide
theorem test_decode_table_word : decodeTableWord 128 0x00000000_00000B24_00000000_00180005 = some (.encode 0 12 0xB24) := by decide

/-! ### Encoding: the words of R92 -/

theorem test_encode_pulse : encode (.pulse 1 .high 700) = 0x00000000_00000000_000002BC_00010101 := by decide
theorem test_encode_load_last : encode (.loadLast 0 12 0xB24) = 0x00000000_00000B24_00000000_00180008 := by decide

/-! ### Classifier (V-C1 to V-C7) -/

theorem test_match_at_bounds : [500, 501, 899, 900].map (fun d => matchDur d 700 200) = [false, true, true, false] := by decide
theorem test_header_at_bounds :
    [18000, 18001, 32399, 32400].map (isHeader Template.templateA) = [false, true, true, false] := by decide
theorem test_eof_at_bounds : [2799, 2800, 4294967295].map (isEOF Template.templateA) = [false, true, true] := by decide
theorem test_sym_shapes :
    [sym Template.templateA 700 1400, sym Template.templateA 1400 700, sym Template.templateA 700 700,
      sym Template.templateA 1599 501, sym Template.templateA 1600 700] =
    [some false, some true, none, some true, none] := by decide
theorem test_sym_overlap_is_zero : sym ⟨100, 150, 60, 1, 0⟩ 150 100 = some false := by decide

/-! ### PULSE -/

/-- V-D7: a validated end-of-frame. -/
theorem test_pulse_reports_frame :
    let o := exec (.pulse 0 .low 2800) (slotIn .awl 700 12 0xB24)
    regsAfter o 0 = some ⟨.hdr, 700, 0xB24, 12, 0xB24, 12, true⟩ ∧
      traceAfter o = some [.event ⟨.found, 0, 0xB24, 12⟩, .response ⟨.ok, .empty⟩] := by decide

/-- V-D15: the 65th bit. -/
theorem test_pulse_overflows :
    let o := exec (.pulse 0 .high 700) (slotIn .aw2 1400 64 0xFFFFFFFF_FFFFFFFF)
    regsAfter o 0 = some ⟨.idle, 1400, 0xFFFFFFFF_FFFFFFFF, 64, 0, 0, false⟩ ∧
      traceAfter o = some [.event ⟨.overflow, 0, 0xFFFFFFFF_FFFFFFFF, 64⟩, .response ⟨.ok, .empty⟩] := by decide

/-! ### PULSE_ALL -/

/-- V-X1: two slots report the same frame, slot 0 first. -/
theorem test_pulse_all_reports_in_slot_order :
    let r : SlotRegs := ⟨.awl, 700, 0xB24, 12, 0, 0, false⟩
    let s := (blockOf [Template.templateA, Template.templateA]).setRegs [r, r]
    traceAfter (exec (.pulseAll .low 2800) s) =
      some [.event ⟨.found, 0, 0xB24, 12⟩, .event ⟨.found, 1, 0xB24, 12⟩, .response ⟨.ok, .empty⟩] := by decide

/-- V-X2: the header of template A moves slot 0 only. -/
theorem test_pulse_all_isolated :
    let o := exec (.pulseAll .low 25200) (blockOf [Template.templateA, templateB])
    (regsAfter o 0).map (fun r => r.st) = some .hdr ∧ (regsAfter o 1).map (fun r => r.st) = some .idle := by decide

/-! ### RESET, RESET_ALL -/

/-- V-D22. -/
theorem test_reset_writes_st_only :
    regsAfter (exec (.reset 0) (slotIn .aw2 700 5 0x16)) 0 = some ⟨.idle, 700, 0x16, 5, 0, 0, false⟩ := by decide

/-- V-X3, on two slots. -/
theorem test_reset_all_keeps_buffers :
    let r : SlotRegs := ⟨.aw2, 700, 5, 3, 0, 0, false⟩
    let o := exec .resetAll ((blockOf [Template.templateA, templateB]).setRegs [r, r])
    regsAfter o 0 = some ⟨.idle, 700, 5, 3, 0, 0, false⟩ ∧ regsAfter o 1 = some ⟨.idle, 700, 5, 3, 0, 0, false⟩ := by decide

/-! ### ENCODE, READ_ENC -/

/-- V-E2. -/
theorem test_encode_three_bits :
    (nextState (exec (.encode 0 3 0b101) (blockOf [Template.templateA]))).map
      (fun s => (s.block.encLen, s.block.encBuf.take 8)) =
    some (8, [⟨.low, 25200⟩, ⟨.high, 700⟩, ⟨.low, 1400⟩, ⟨.high, 700⟩, ⟨.low, 700⟩, ⟨.high, 1400⟩, ⟨.low, 1400⟩, ⟨.high, 700⟩]) := by
  decide

/-- V-S8: ENC_OVERFLOW, nothing written. -/
theorem test_encode_overflow :
    nextState (exec (.encode 0 13 0x1649) (blockOf [Template.templateA])) =
      some ((blockOf [Template.templateA]).emit (.response ⟨.encOverflow, .empty⟩)) := by decide

/-- The example of R198. -/
theorem test_read_enc :
    ((nextState (exec (.encode 0 3 0b101) (blockOf [Template.templateA]))).bind fun s =>
      (traceAfter (exec (.readEnc 3) s)).map fun tr => tr.drop 1) = some [.response ⟨.ok, .entry 8 .high 700⟩] := by decide

/-- V-E11. -/
theorem test_read_enc_after_reset :
    traceAfter (exec (.readEnc 0) (blockOf [Template.templateA])) = some [.response ⟨.badIndex, .len 0⟩] := by decide

/-! ### REVERSE -/

/-- V-R1 to V-R8 through the function, V-R9 through the command. -/
theorem test_reverse_bits :
    [reverseBits 0xB24 12, reverseBits 1 64, reverseBits 0x1234 0, reverseBits 0xFF00 8, reverseBits 1 4, reverseBits 6 3] =
      [0x24D, 0x80000000_00000000, 0, 0, 8, 3] := by decide
theorem test_reverse_bad_count :
    traceAfter (exec (.reverse 65 1) (blockOf [Template.templateA])) = some [.response ⟨.badNb, .empty⟩] := by decide

/-! ### LOAD_LAST, READ_LAST -/

/-- V-L3: the value is not masked; V-L5: MINB is not compared. -/
theorem test_load_last :
    regsAfter (exec (.loadLast 0 4 0xFF) (blockOf [Template.templateA])) 0 = some ⟨.idle, 0, 0, 0, 0xFF, 4, true⟩ := by decide

/-- V-L1. -/
theorem test_read_last_after_reset :
    traceAfter (exec (.readLast 0) (blockOf [Template.templateA])) = some [.response ⟨.ok, .last false 0 0⟩] := by decide

/-! ### READ_STATE, READ_TEMPLATE -/

/-- The example of R280, from the state it describes. -/
theorem test_read_state :
    traceAfter (exec (.readState 0) (slotIn .awl 0 0 0)) = some [.response ⟨.ok, .regs 2 0 0 0⟩] := by decide

/-- V-G3, and V-G4 for a slot that does not exist. -/
theorem test_read_template :
    traceAfter (exec (.readTemplate 0) (blockOf [Template.templateA])) = some [.response ⟨.ok, .template 700 1400 200 36 12⟩] := by decide
theorem test_read_template_bad_slot :
    traceAfter (exec (.readTemplate 1) (blockOf [Template.templateA])) = some [.response ⟨.badSlot, .empty⟩] := by decide

/-! ### Steps -/

/-- V-S6: BAD_SLOT before BAD_NB, as the first step after reset. -/
theorem test_step_status_priority :
    traceAfter (step (State.reset.withFetchWord 128 0x00000000_00000000_00000000_00820105)) =
      some [.response ⟨.badSlot, .empty⟩] := by decide

/-- V-S5: ILLEGAL before BAD_SLOT. -/
theorem test_step_illegal_first :
    traceAfter (step (State.reset.withFetchWord 128 0x00000000_00000000_000002BC_00020101)) =
      some [.response ⟨.illegal, .empty⟩] := by decide

/-- R351: a sink that re-enters leaves the run without a next step. -/
theorem test_reentrant_sink_is_stuck :
    nextState (exec (.pulse 0 .low 2800) { slotIn .awl 700 12 0xB24 with sink := [.reenter] }) = none := by decide

/-! ### Text codec -/

/-- V-T1 -/
theorem test_display :
    displayText "TestProto".toList 12 0xB24 = "TestProto 12 Bit\r\n KEY:0x00000B24\r\n YEK:0x0000024D\r\n".toList := by decide
/-- V-T4 -/
theorem test_save : saveText "TestProto".toList 12 0xB24 = "Protocol: TestProto\nBit: 12\nKey: 00000B24\n".toList := by decide
/-- V-T6 and V-T7 -/
theorem test_parse_bit_accepts :
    ["Bit: 12", "Bit: 012", "Bit: 0", "Bit: 64"].map (fun l => parseBit l.toList) = [some 12, some 12, some 0, some 64] := by decide
theorem test_parse_bit_rejects :
    ["Bit: 65", "Bit:12", "Bit:  12", "Bit: +12", "Bit: 12\r", "Bit: ", "bit: 12", "Bit: 12 "].all
      (fun l => (parseBit l.toList).isNone) = true := by decide
/-- V-T8 and V-T9 -/
theorem test_parse_key_accepts :
    ["Key: 00000B24", "Key: 00000b24", "Key: FFFFFFFF"].map (fun l => parseKey l.toList) =
      [some 0xB24, some 0xB24, some 0xFFFFFFFF] := by decide
theorem test_parse_key_rejects :
    ["Key: B24", "Key: 000000B24", "Key: 0x00000B24", "Key: 00000B2G", "Key: 00000B24\r", "Key: ZZZZZZZZ"].all
      (fun l => (parseKey l.toList).isNone) = true := by decide
/-- V-T12 -/
theorem test_load_record :
    (loadRecord ⟨["TestProto".toList], 16⟩ "Protocol: TestProto\nBit: 40\nKey: 00000B24\n".toList) =
      .ok (.loadLast 0 40 0xB24) := by decide
/-- V-T13 -/
theorem test_load_unknown_protocol :
    (loadRecord ⟨["TestProto".toList], 16⟩ "Protocol: Other\nBit: 40\nKey: 00000B24\n".toList) =
      .error .unknownProtocol := by decide
/-- V-T5 -/
theorem test_save_nothing : formatSave ⟨["TestProto".toList], 16⟩ 0 (.last false 0 0) = .error .nothingToSave := by decide

/-! ### Assembler (R90 to R92) -/

theorem test_assemble_commands :
    ["PULSE 1, H, 700", "ENCODE 0, 12, 0xB24 ; a comment", "RESET_ALL", "READ_ENC 3"].map
      (fun l => (assembleLine Config.ofPrograms l.toList)) =
    [some [.pulse 1 .high 700], some [.encode 0 12 0xB24], some [.resetAll], some [.readEnc 3]] := by decide
/-- V-R7 and V-E2, as the vectors spell them, and spellings that are no number. -/
theorem test_assemble_number_forms :
    ["REVERSE 64, 0xFFFFFFFF_FFFFFFFF", "ENCODE 0, 3, 0b101", "RESET 0x_1", "RESET 0b2", "RESET 0b", "RESET 0x", "RESET 1_0"].map
      (fun l => (assembleLine Config.ofPrograms l.toList)) =
    [some [.reverse 64 0xFFFFFFFF_FFFFFFFF], some [.encode 0 3 5], none, none, none, none, none] := by
  decide

theorem test_assemble_macros :
    ["HEADER 0", "SYM 0, 1", "EOF 0", "LOWALL 5", "HEADER 1", "PULSE 1 H 700"].map
      (fun l => (assembleLine Config.ofPrograms l.toList)) =
    [some [.pulse 0 .low 25200, .pulse 0 .high 700], some [.pulse 0 .low 1400, .pulse 0 .high 700],
      some [.pulse 0 .low 2800], some [.pulseAll .low 5], none, none] := by decide

/-! ### Environment (R32, R310, R355, R360, R7) -/

/-- Parameters of a host whose wires carry whole words and status codes, whose source clamps, and whose context is a number. -/
def params : Params CmdWord (BitVec 8) Nat :=
  ⟨Config.ofPrograms, ⟨["TestProto".toList], 16⟩, clampOverrange, fun ws => ws, fun r => [r.status.code], 100, 7⟩

/-- V-D7's frame as the document's callback: `{name, value, bit_count}` and the host's context. -/
theorem test_found_callback :
    foundCallback params.host params.userContext ⟨.found, 0, 0xB24, 12⟩ = some ⟨"TestProto".toList, 0xB24, 12, 7⟩ := by
  decide

/-- OVERFLOW is no callback, and a slot without a name has none. -/
theorem test_no_callback :
    foundCallback params.host params.userContext ⟨.overflow, 0, 1, 64⟩ = none ∧
      foundCallback params.host params.userContext ⟨.found, 1, 1, 1⟩ = none := by
  decide

/-- R355: an interval above `2^32 - 1` clamps; with SHORT = 2^30 the clamped value is no end-of-frame (log entry 17). -/
theorem test_capture_clamps :
    [4294967295, 4294967296, 1400].map (captureDur params.durOverrange) = [0xFFFFFFFF, 0xFFFFFFFF, 1400] ∧
      isEOF ⟨0x40000000, 1, 1, 1, 1⟩ (captureDur params.durOverrange 4294967296) = false := by
  decide

/-- Boot, one word from the wire, and its response on the other wire (R344; V-S1: status ILLEGAL is 1). -/
theorem test_boot_and_wires :
    (((nextState (params.boot [0])).bind fun s => nextState (step s)).map params.responseWire) = some [1] := by
  decide

/-- R360: the latency lies below every interval, or it does not. -/
theorem test_keeps_up : params.keepsUp [700, 1400] = true ∧ params.keepsUp [700, 100] = false := by decide

/-! ### Witnesses: for each statement with hypotheses, a concrete state and operands that meet them all, with a boundary value for each clause -/

/-- Slot 0 with template A. -/
def blockA : State := blockOf [Template.templateA]

/-- Slot 0 with template A, slot 1 with template B. -/
def blockAB : State := blockOf [Template.templateA, templateB]

theorem blockOf_sinkAccepts (ts : List Template) : (blockOf ts).sinkAccepts := by
  simp [State.sinkAccepts, blockOf]

theorem slotIn_sinkAccepts (st : DecState) (pend : Dur) (n : Count) (v : Code) : (slotIn st pend n v).sinkAccepts := by
  simp [State.sinkAccepts, slotIn, blockOf]

theorem not_legal_zero : ¬ LegalWord 0 := by unfold LegalWord; decide
theorem not_legal_opcode_0C : ¬ LegalWord 0x0C := by unfold LegalWord; decide
theorem legal_ENCODE_12 : LegalWord 0x00000000_00000B24_00000000_00180005 := by unfold LegalWord; decide

theorem witness_OperandsAreTheNamedBits :
    [0x00000000_00000000_000002BC_00010101, 0x00000000_00000000_00006270_00000002, 0x00000000_00000000_00000000_00000203,
      0x00000000_00000000_00000000_00000004, 0x00000000_00000B24_00000000_00180005, 0x00000000_00000000_00000003_00000006,
      0x00000000_00000B24_00000000_00180007, 0x00000000_00000B24_00000000_00180008, 0x00000000_00000000_00000000_00000009,
      0x00000000_00000000_00000000_0000000A, 0x00000000_00000000_00000000_0000000B].map
        (fun w : CmdWord => (w.op, (decode w).toOption.isSome)) =
    [(1, true), (2, true), (3, true), (4, true), (5, true), (6, true), (7, true), (8, true), (9, true), (10, true), (11, true)] := by
  decide

theorem witness_IllegalWordsAreRejectedWithoutEffect :
    let s := blockA.present 0x0C
    s.cfg.wf = true ∧ s.cmds = 0x0C :: [] ∧ ¬ LegalWord 0x0C ∧ 0x0C ≤ (CmdWord.op 0x0C).toNat ∧ CmdWord.op 0 = 0 :=
  ⟨by decide, rfl, not_legal_opcode_0C, by decide, by decide⟩

theorem witness_SerializedWordDecodesAlike : (List.replicate 17 (0 : Byte)).length ≠ 16 := by decide

theorem witness_StepRunsTheDecodedCommand :
    let s := blockA.present 0x04
    s.cfg.wf = true ∧ s.cmds = 0x04 :: [] ∧ decode 0x04 = .ok .resetAll := ⟨by decide, rfl, by decide⟩

theorem witness_CommandSequenceIsThatManySteps :
    blockA.cfg.wf = true ∧ ∃ t, runCommands [.pulse 0 .low 25200, .readEnc 0] blockA = .next t := ⟨by decide, _, rfl⟩

theorem witness_WaitingBlockKeepsItsState : blockA.cfg.wf = true ∧ blockA.cmds = [] := ⟨by decide, rfl⟩

theorem witness_IllFormedConfigurationIsRefused :
    Config.wf ⟨[Template.templateA], 2⟩ = true ∧ Config.wf ⟨[Template.templateA], 1⟩ = false ∧
      (State.powerOn ⟨[], 26⟩).cfg.wf = false := by decide

theorem witness_ConfigurationNeverChanges : ∃ t, step (blockA.present 0x04) = .next t := ⟨_, rfl⟩

theorem witness_ResetMeetsTheInvariant : Config.wf ⟨[Template.templateA, templateB], 2⟩ = true := by decide

/-- Slot 0 in the middle of a frame, the encoder holding three bits. -/
def midFrame : State :=
  (slotIn .aw2 1400 3 0b101).writeEnc (encodePulses Template.templateA 0b101 3)

theorem midFrame_inv : midFrame.Inv where
  cfg_wf := by decide
  slots_length := by decide
  encBuf_length := by decide
  encLen_even := by decide
  enc_alternates := by decide
  slots_inv := by
    intro p hp
    obtain rfl : p = 0 := by
      have : midFrame.cfg.nDec = 1 := rfl
      omega
    exact ⟨by decide, by decide, by decide, by decide, by decide⟩

theorem witness_EveryStepKeepsTheInvariant :
    ∃ s t, State.Inv s ∧ step s = .next t :=
  ⟨midFrame.present (encode (.pulse 0 .high 700)), _, ⟨midFrame_inv.1, midFrame_inv.2, midFrame_inv.3, midFrame_inv.4,
    midFrame_inv.5, midFrame_inv.6⟩, rfl⟩

theorem witness_ReachableBuffersAreBounded :
    Config.wf ⟨[Template.templateA], 26⟩ = true ∧
      ∃ s, Reachable ⟨[Template.templateA], 26⟩ s ∧ s.block.encLen = 26 :=
  ⟨by decide, _, .next _ _ (.start [encode (.encode 0 12 0xB24)] []) rfl, rfl⟩

theorem witness_AcceptingSinkRunsNeverStop : blockA.cfg.wf = true ∧ blockA.sinkAccepts :=
  ⟨by decide, blockOf_sinkAccepts _⟩

/-- A pair of each shape, one of neither, one that is both in a template whose windows overlap. -/
theorem witness_SymbolClass :
    (matchDur 501 700 200 = true ∧ matchDur 1599 1400 200 = true) ∧
    (matchDur 1400 700 200 = false ∧ matchDur 1201 1400 200 = true ∧ matchDur 899 700 200 = true) ∧
    (matchDur 500 700 200 = false ∧ matchDur 500 1400 200 = false) ∧
    (matchDur 120 100 60 = true ∧ matchDur 130 150 60 = true ∧ matchDur 120 150 60 = true ∧ matchDur 130 100 60 = true) := by
  decide

/-- Each row's condition at its boundary. -/
theorem witness_NextStateTable :
    let t := Template.templateA
    let r (st : DecState) (n : Count) : SlotRegs := ⟨st, 1400, 0, n, 0, 0, false⟩
    ((r .idle 0).st = .idle ∧ isHeader t 18001 = true ∧ isHeader t 18000 = false) ∧
    ((r .hdr 0).st = .hdr ∧ isStart t 501 = true ∧ isStart t 900 = false) ∧
    ((r .awl 12).st = .awl ∧ isEOF t 2800 = true ∧ isEOF t 2799 = false ∧ t.minb.toNat ≤ (r .awl 12).bufn.toNat ∧
      (r .awl 11).bufn.toNat < t.minb.toNat) ∧
    ((r .aw2 64).st = .aw2 ∧ sym t (r .aw2 64).pend 900 = none ∧ sym t (r .aw2 64).pend 899 = some true ∧
      (r .aw2 64).bufn.toNat = 64 ∧ (r .aw2 63).bufn.toNat < 64) := by
  decide

theorem witness_PulseRunsOneStep : (0 : SlotNo).toNat < blockA.cfg.nDec ∧ blockA.sinkAccepts :=
  ⟨by decide, blockOf_sinkAccepts _⟩

/-- Slot 1 of two is pulsed; a state in which each of the excluded changes does happen. -/
theorem witness_PulseFrame :
    blockAB.block.slots.length = blockAB.cfg.nDec ∧ (1 : SlotNo).toNat < blockAB.cfg.nDec ∧
      (∃ t, exec (.pulse 1 .low 11520) blockAB = .next t) ∧
      (blockAB.reg 1).st ≠ .awl ∧ (blockAB.reg 1).st ≠ .hdr ∧ (blockAB.reg 1).st ≠ .aw2 := by
  refine ⟨by decide, by decide, ⟨_, rfl⟩, by decide, by decide, by decide⟩

theorem witness_ZeroToleranceSlotStaysIdle :
    let s := blockOf [⟨700, 1400, 0, 36, 12⟩]
    s.block.slots.length = s.cfg.nDec ∧ (0 : SlotNo).toNat < s.cfg.nDec ∧ (s.tpl (0 : SlotNo).toNat).tol = 0 ∧
      (s.reg (0 : SlotNo).toNat).st = .idle := by
  decide

theorem witness_EmptyFrameIsReportedWithMinbZero :
    let s := blockOf [⟨700, 1400, 200, 36, 0⟩]
    s.block.slots.length = s.cfg.nDec ∧ (0 : SlotNo).toNat < s.cfg.nDec ∧ s.sinkAccepts ∧
      (s.tpl (0 : SlotNo).toNat).minb = 0 ∧ (s.reg (0 : SlotNo).toNat).st = .idle ∧
      isHeader (s.tpl (0 : SlotNo).toNat) 32399 = true ∧ isStart (s.tpl (0 : SlotNo).toNat) 899 = true ∧
      isEOF (s.tpl (0 : SlotNo).toNat) 2800 = true :=
  ⟨by decide, by decide, blockOf_sinkAccepts _, by decide, by decide, by decide, by decide, by decide⟩

theorem witness_OverlongFrameIsNeverReported :
    let s := slotIn .aw2 1400 64 0xFFFFFFFF_FFFFFFFF
    s.block.slots.length = s.cfg.nDec ∧ (0 : SlotNo).toNat < s.cfg.nDec ∧ s.sinkAccepts ∧
      (s.reg (0 : SlotNo).toNat).st = .aw2 ∧ (s.reg (0 : SlotNo).toNat).bufn = 64 ∧
      sym (s.tpl (0 : SlotNo).toNat) (s.reg (0 : SlotNo).toNat).pend 700 = some true :=
  ⟨by decide, by decide, slotIn_sinkAccepts _ _ _ _, by decide, by decide, by decide⟩

/-- The header of template A, at `BUFN` 12 and 11, and `K = 4` exactly. -/
theorem witness_RepeatedHeaderEndsTheFrame :
    let r (n : Count) : SlotRegs := ⟨.awl, 700, 0, n, 0, 0, false⟩
    let t := Template.templateA
    (r 12).st = .awl ∧ BitVec.toNat (25200 : Dur) = t.short.toNat * t.k.toNat ∧ t.short.toNat * 4 ≤ t.short.toNat * t.k.toNat ∧
      t.minb.toNat ≤ (r 12).bufn.toNat ∧ (r 11).bufn.toNat < t.minb.toNat ∧ isStart t 700 = true ∧
      4 ≤ BitVec.toNat (4 : BitVec 8) ∧ BitVec.toNat (2800 : Dur) = t.short.toNat * BitVec.toNat (4 : BitVec 8) := by
  decide

theorem witness_ResetsWriteOnlyTheState : (1 : SlotNo).toNat < blockAB.cfg.nDec := by decide

/-- Two blocks that agree on slot 1 only, and commands of slot 1 and of slot 0. -/
theorem witness_SlotsAreIsolated :
    let u := (blockOf [templateB, templateB]).setReg 0 ⟨.aw2, 1400, 1, 1, 7, 3, true⟩
    blockAB.cfg.wf = true ∧ blockAB.cfg.nDec = u.cfg.nDec ∧ 1 < blockAB.cfg.nDec ∧
      blockAB.block.slots.length = blockAB.cfg.nDec ∧ u.block.slots.length = u.cfg.nDec ∧ blockAB.tpl 1 = u.tpl 1 ∧
      blockAB.reg 1 = u.reg 1 ∧
      (∃ t, exec (.pulse 1 .low 11520) blockAB = .next t) ∧ (∃ t, exec (.pulse 1 .low 11520) u = .next t) ∧
      Instr.slotOperand (.pulse 1 .low 11520) = some 1 ∧ (1 : SlotNo).toNat = 1 ∧
      Instr.encoderSide (.pulse 1 .low 11520) = false ∧
      Instr.slotOperand (.pulse 0 .low 25200) = some 0 ∧ (0 : SlotNo).toNat ≠ 1 := by
  refine ⟨by decide, by decide, by decide, by decide, by decide, by decide, by decide, ⟨_, rfl⟩, ⟨_, rfl⟩, by decide,
    by decide, by decide, by decide, by decide⟩

theorem witness_BroadcastStepsEverySlot : blockAB.block.slots.length = blockAB.cfg.nDec ∧ blockAB.sinkAccepts :=
  ⟨by decide, blockOf_sinkAccepts _⟩

theorem witness_BroadcastIsEachSlotInTurn :
    blockAB.cfg.wf = true ∧ blockAB.block.slots.length = blockAB.cfg.nDec ∧ blockAB.sinkAccepts :=
  ⟨by decide, by decide, blockOf_sinkAccepts _⟩

theorem witness_BroadcastLeavesEachSlotAsIfAlone :
    let s := blockAB.setReg 0 ⟨.aw2, 1400, 1, 1, 7, 3, true⟩
    let u := blockOf [templateB, templateB]
    (1 : SlotNo).toNat < s.cfg.nDec ∧ (1 : SlotNo).toNat < u.cfg.nDec ∧ s.block.slots.length = s.cfg.nDec ∧
      u.block.slots.length = u.cfg.nDec ∧ s.tpl (1 : SlotNo).toNat = u.tpl (1 : SlotNo).toNat ∧
      s.reg (1 : SlotNo).toNat = u.reg (1 : SlotNo).toNat ∧
      (∃ t, runCommands (broadcastCommands [⟨.low, 11520⟩, ⟨.high, 320⟩]) s = .next t) ∧
      ∃ t, runCommands (pulseCommands 1 [⟨.low, 11520⟩, ⟨.high, 320⟩]) u = .next t := by
  refine ⟨by decide, by decide, by decide, by decide, by decide, by decide, ⟨_, rfl⟩, ⟨_, rfl⟩⟩

/-- A full buffer, and one with room whose value lies below `2^BUFN`. -/
theorem witness_AppendShiftsInFromTheRight :
    let r (n : Count) (v : Code) : SlotRegs := ⟨.aw2, 0, v, n, 0, 0, false⟩
    (r 64 0).bufn = 64 ∧ (r 63 0x7FFFFFFF_FFFFFFFF).bufn.toNat < 64 ∧
      (r 63 0x7FFFFFFF_FFFFFFFF).bufv.toNat < 2 ^ (r 63 0x7FFFFFFF_FFFFFFFF).bufn.toNat := by
  decide

theorem witness_FirstAppendedBitIsMostSignificant : (List.replicate 64 true).length ≤ 64 := by decide

theorem witness_SixtyFifthAppendFails :
    (List.replicate 64 true).length ≤ 64 ∧ 64 < (List.replicate 65 true).length := by decide

theorem witness_ReverseBitsMovesEachBit :
    64 ≤ 64 ∧ 63 < 64 ∧ (∀ i, i < 4 → BitVec.getLsbD (0xF6 : Code) i = BitVec.getLsbD (0x06 : Code) i) := by decide

theorem witness_ReversingTwiceKeepsTheLowBits : 12 ≤ 64 ∧ BitVec.toNat (0xB24 : Code) < 2 ^ 12 := by decide

theorem witness_EncodeWritesTheSequence :
    blockA.cfg.wf = true ∧ (0 : SlotNo).toNat < blockA.cfg.nDec ∧ (12 : Count).toNat ≤ 64 ∧
      2 + 2 * (12 : Count).toNat ≤ blockA.cfg.encCap ∧ 11 < (12 : Count).toNat ∧
      BitVec.getLsbD (0xB24 : Code) 11 = true ∧ BitVec.getLsbD (0xB24 : Code) 10 = false := by
  decide

theorem witness_RejectedEncodeWritesNothing :
    let w : CmdWord := 0x00000000_00000B24_00000000_00190005
    (blockA.cfg.wf = true ∧ (blockA.present w).cmds = w :: [] ∧ w.op = 0x05 ∧ ¬ LegalWord w) ∧
      blockA.cfg.nDec ≤ (1 : SlotNo).toNat ∧ (0 : SlotNo).toNat < blockA.cfg.nDec ∧ 64 < (65 : Count).toNat ∧
      (13 : Count).toNat ≤ 64 ∧ blockA.cfg.encCap < 2 + 2 * (13 : Count).toNat := by
  refine ⟨⟨by decide, rfl, by decide, by unfold LegalWord; decide⟩, by decide, by decide, by decide, by decide, by decide⟩

theorem witness_EncodedPulsesAlternate :
    ∃ e f, (encodePulses Template.templateA 0b101 3)[2 * 3]? = some e ∧
      (encodePulses Template.templateA 0b101 3)[2 * 3 + 1]? = some f := ⟨_, _, rfl, rfl⟩

theorem witness_EncodeReadsOnlyTheLowBits : (64 : Count).toNat ≤ 64 := by decide

theorem witness_ReadEncReturnsTheEntry :
    (BitVec.toNat (7 : BitVec 32) < midFrame.block.encLen ∧
        midFrame.block.encBuf[BitVec.toNat (7 : BitVec 32)]? = some ⟨.high, 700⟩) ∧
      midFrame.block.encLen ≤ BitVec.toNat (8 : BitVec 32) := by
  decide

/-- Template A with `n = MINB = 12`, the capacity exactly `2 + 2n`, and the shortest end-of-frame. -/
theorem witness_EncodedCodeIsDecodedAgain :
    let t := blockA.tpl (0 : SlotNo).toNat
    blockA.cfg.wf = true ∧ blockA.block.slots.length = blockA.cfg.nDec ∧ (0 : SlotNo).toNat < blockA.cfg.nDec ∧
      blockA.sinkAccepts ∧ (12 : Count).toNat ≤ 64 ∧ t.minb.toNat ≤ (12 : Count).toNat ∧
      2 + 2 * (12 : Count).toNat ≤ blockA.cfg.encCap ∧ 1 ≤ t.tol.toNat ∧ t.long.toNat < t.short.toNat * 4 ∧
      (t.tol.toNat : ℤ) ≤ |(t.long.toNat : ℤ) - (t.short.toNat : ℤ)| ∧
      ((blockA.reg (0 : SlotNo).toNat).st = .idle ∨ (blockA.reg (0 : SlotNo).toNat).st = .hdr) ∧
      t.short.toNat * 4 ≤ BitVec.toNat (2800 : Dur) :=
  ⟨by decide, by decide, by decide, blockOf_sinkAccepts _, by decide, by decide, by decide, by decide, by decide, by decide,
    .inl (by decide), by decide⟩

theorem witness_ReverseAnswersTheReversal : (64 : Count).toNat ≤ 64 ∧ 64 < (65 : Count).toNat := by decide

theorem witness_LoadLastInstallsTheCode : (1 : SlotNo).toNat < blockAB.cfg.nDec ∧ (64 : Count).toNat ≤ 64 := by decide

theorem witness_RegisterReadsAnswerTheRegisters :
    blockAB.cfg.templates[(1 : SlotNo).toNat]? = some templateB ∧
      blockAB.block.slots[(1 : SlotNo).toNat]? = some SlotRegs.reset := by
  decide

theorem witness_ReadsChangeNothingAndResetsAreIdempotent :
    Instr.readsOnly (.readLast 0) ∧ (∃ p, Instr.reset 0 = .reset p) ∧ (∃ t, exec (.reset 0) midFrame = .next t) ∧
      ∃ t, exec .resetAll midFrame = .next t :=
  ⟨.inl ⟨0, rfl⟩, ⟨0, rfl⟩, ⟨_, rfl⟩, ⟨_, rfl⟩⟩

/-- Slot 0 in AWL with a 12-bit code: an end-of-frame, a LOAD_LAST, and a command that writes neither. -/
theorem witness_LastFoundHasTwoWritePaths :
    let s := slotIn .awl 700 12 0xB24
    0 < s.cfg.nDec ∧ s.block.slots.length = s.cfg.nDec ∧ (∃ t, exec (.pulse 0 .low 2800) s = .next t) ∧
      (∃ t, exec (.loadLast 0 64 1) s = .next t) ∧ ∃ t, exec (.reset 0) s = .next t := by
  refine ⟨by decide, by decide, ⟨_, rfl⟩, ⟨_, rfl⟩, ⟨_, rfl⟩⟩

theorem witness_EncoderAndSlotsShareNothing :
    (Instr.encoderSide (.encode 0 3 5) = true ∧ ∃ t, exec (.encode 0 3 5) blockA = .next t) ∧
      (Instr.encoderSide (.pulse 0 .low 25200) = false ∧ ∃ t, exec (.pulse 0 .low 25200) blockA = .next t) ∧
      ∃ t, runCommands [.encode 0 3 5, .pulse 0 .low 25200] blockA = .next t :=
  ⟨⟨rfl, _, rfl⟩, ⟨rfl, _, rfl⟩, _, rfl⟩

/-- A pulse that raises an event, in one step. -/
theorem witness_OneResponseAfterTheEvents :
    let s := (slotIn .awl 700 12 0xB24).present (encode (.pulse 0 .low 2800))
    (∃ w rest, s.cmds = w :: rest) ∧ ∃ t, step s = .next t := ⟨⟨_, _, rfl⟩, _, rfl⟩

theorem witness_RejectedCommandChangesNothing :
    ∃ w rest t, (blockA.present (encode (.reset 1))).cmds = w :: rest ∧ step (blockA.present (encode (.reset 1))) = .next t ∧
      t.trace = blockA.trace ++ ([] : List Event).map PortRecord.event ++ [.response ⟨.badSlot, .empty⟩] ∧
      Status.badSlot ≠ .ok := ⟨_, _, _, rfl, rfl, by decide, by decide⟩

/-- The words, in the order of the checks: an unused bit set, `SLOT = N_DEC`, `NB = 65`, one bit more than fits `ENC_CAP = 26`, `IDX = ENC_LEN`, and the largest ENCODE that fits. -/
theorem witness_FirstFailingCheckDecidesTheStatus :
    blockA.cfg.wf = true ∧ blockA.sinkAccepts ∧ (blockA.present 0x04).cmds = 0x04 :: [] ∧
      ¬ LegalWord 0x00000000_00000000_000002BC_00020001 ∧
      (LegalWord 0x00000000_00000000_00000000_00000103 ∧ ¬ 1 < blockA.cfg.nDec) ∧
      (LegalWord 0x00000000_00000000_00000000_00820007 ∧ ¬ (65 : Count).toNat ≤ 64) ∧
      (LegalWord 0x00000000_00001649_00000000_001A0005 ∧ blockA.cfg.encCap < 2 + 2 * (13 : Count).toNat) ∧
      (LegalWord 0x00000000_00000000_00000000_00000006 ∧ blockA.block.encLen ≤ (0 : Dur).toNat) ∧
      (LegalWord 0x00000000_00000B24_00000000_00180005 ∧ ¬ blockA.cfg.encCap < 2 + 2 * (12 : Count).toNat) := by
  refine ⟨by decide, blockOf_sinkAccepts _, rfl, ?_, ⟨?_, by decide⟩, ⟨?_, by decide⟩, ⟨?_, by decide⟩, ⟨?_, by decide⟩,
    legal_ENCODE_12, by decide⟩ <;> (unfold LegalWord; decide)

theorem witness_OnlyPulsesRaiseEvents :
    let s := slotIn .awl 700 12 0xB24
    s.cfg.wf = true ∧ ∃ t, exec (.pulse 0 .low 2800) s = .next t ∧
      t.trace = s.trace ++ [⟨.found, 0, 0xB24, 12⟩].map PortRecord.event ++ [.response ⟨.ok, .empty⟩] ∧
      HostConfig.wf ⟨["TestProto".toList], 9⟩ s.cfg = true :=
  ⟨by decide, _, rfl, by decide, by decide⟩

theorem witness_StuckSinkHasNoNextState :
    let s := { slotIn .awl 700 12 0xB24 with sink := [.never] }
    let u := { slotIn .awl 700 12 0xB24 with sink := [.reenter] }
    (0 : SlotNo).toNat < s.cfg.nDec ∧
      (stepSlot (s.tpl (0 : SlotNo).toNat) 0 .low 2800 (s.reg (0 : SlotNo).toNat)).2.isSome = true ∧ s.sink = .never :: [] ∧
      u.sink = .reenter :: [] ∧ (stepSlot (s.tpl (0 : SlotNo).toNat) 0 .low 2799 (s.reg (0 : SlotNo).toNat)).2 = none := by
  decide

theorem witness_LoadIssuesOneCommandOrFails :
    parseBit "Bit: 64".toList = some 64 ∧ parseKey "Key: 00000b24".toList = some 0xB24 ∧ parseBit "Bit: 65".toList = none := by
  decide

theorem witness_NumbersAreWrittenInFull : (10 : Count) ≠ 0 := by decide

theorem witness_SaveThenLoadKeepsTheLowBits :
    HostConfig.wf ⟨["TestProto".toList], 16⟩ blockA.cfg = true ∧ blockA.block.slots.length = blockA.cfg.nDec ∧
      ["TestProto".toList][(0 : SlotNo).toNat]? = some "TestProto".toList ∧ (64 : Count).toNat ≤ 64 := by
  decide

theorem witness_DisplayAndSaveFromReadLast :
    (HostConfig.mk ["TestProto".toList] 16).names[(0 : SlotNo).toNat]? = some "TestProto".toList := by decide

/-- Template A, whose EOF fits DUR, and a template whose EOF does not. -/
theorem witness_MacrosSpellTheEncodedSequence :
    (Template.templateA.wf = true ∧ Config.ofPrograms.templates[(0 : SlotNo).toNat]? = some Template.templateA ∧
        Template.templateA.short.toNat * 4 < 2 ^ 32) ∧
      Template.wf ⟨0x40000000, 1, 1, 1, 1⟩ = true ∧
      (⟨[⟨0x40000000, 1, 1, 1, 1⟩], 2⟩ : Config).templates[(0 : SlotNo).toNat]? = some ⟨0x40000000, 1, 1, 1, 1⟩ ∧
      2 ^ 32 ≤ BitVec.toNat (0x40000000 : Dur) * 4 := by
  decide

end Sys2Proof.Tests
end

section
/-! PROOFS. What a command does to one slot and to the encoder, said once for all eleven commands, and the statements on the slots' registers that follow (`spec/10_state.md` R23 to R27, R34). -/

namespace Sys2Proof.Machine

/-! ### Reading the registers and templates of the slots that exist -/

theorem State.getElem?_slots {s : State} {q : Nat} (h : q < s.block.slots.length) :
    s.block.slots[q]? = some (s.reg q) := by
  simp [State.reg, List.getD_eq_getElem?_getD, h]

theorem State.getElem?_templates {s : State} {q : Nat} (h : q < s.cfg.nDec) :
    s.cfg.templates[q]? = some (s.tpl q) := by
  simp [State.tpl, List.getD_eq_getElem?_getD, show q < s.cfg.templates.length from h]

/-- Changing the registers of slot `p` alone is writing them back to slot `p`, also where there is no slot `p`. -/
theorem State.slots_mapIdx_at (s : State) (p : Nat) (f : SlotRegs → SlotRegs) :
    (s.block.slots.mapIdx fun q r => if p = q then f r else r) = s.block.slots.set p (f (s.reg p)) := by
  refine List.ext_getElem (by simp) fun q hq _ => ?_
  have hq : q < s.block.slots.length := by simpa using hq
  rw [List.getElem_mapIdx, List.getElem_set]
  split
  next hpq => simp [hpq, State.reg, List.getD_eq_getElem?_getD, hq]
  next => rfl

theorem nDec_le_of_wf {c : Config} (h : c.wf = true) : c.nDec ≤ 256 :=
  ((Config.wf_iff c).mp h).2.1

/-! ### One transition of a slot -/

/-- The six ways a `Step` can end, with the conditions of each: `move` writes ST at most (R131 to R135, R139), the others are the rows of the next-state table that write more or raise an event. -/
inductive SlotStep (t : Template) (p : SlotNo) (lvl : Level) (d : Dur) (r : SlotRegs) : SlotRegs × Option Event → Prop
  | move (st : DecState) (hst : st ≠ .aw2) : SlotStep t p lvl d r (r.goto st, none)
  | start (hst : r.st = .hdr) (hl : lvl = .high) (hd : isStart t d = true) : SlotStep t p lvl d r (r.clear.goto .awl, none)
  | report (hst : r.st = .awl) (hl : lvl = .low) (hd : isEOF t d = true) (hn : t.minb.toNat ≤ r.bufn.toNat) :
      SlotStep t p lvl d r ((r.setLast r.bufv r.bufn).goto .hdr, some (foundEvent p r))
  | lowHalf (hst : r.st = .awl) (hl : lvl = .low) (hd : isEOF t d = false) :
      SlotStep t p lvl d r ({ r with pend := d }.goto .aw2, none)
  | symbol (b : Bool) (hst : r.st = .aw2) (hl : lvl = .high) (hb : sym t r.pend d = some b) (hn : r.bufn ≠ 64) :
      SlotStep t p lvl d r ((r.shiftIn b).goto .awl, none)
  | overflow (b : Bool) (hst : r.st = .aw2) (hl : lvl = .high) (hb : sym t r.pend d = some b) (hn : r.bufn = 64) :
      SlotStep t p lvl d r (r.goto .idle, some (overflowEvent p r))

theorem SlotRegs.goto_self {r : SlotRegs} {st : DecState} (h : r.st = st) : r.goto st = r := by
  subst h; rfl

/-- A `Step` that leaves the slot as it is, outside AW2, is a `move`. -/
theorem SlotStep.stay {t : Template} {p : SlotNo} {lvl : Level} {d : Dur} {r : SlotRegs} {st : DecState}
    (hr : r.st = st) (hst : st ≠ .aw2) : SlotStep t p lvl d r (r, none) := by
  simpa [SlotRegs.goto_self hr] using SlotStep.move (t := t) (p := p) (lvl := lvl) (d := d) (r := r) st hst

/-- The inversion lemma of `Step`. -/
theorem stepSlot_cases (t : Template) (p : SlotNo) (lvl : Level) (d : Dur) (r : SlotRegs) :
    SlotStep t p lvl d r (stepSlot t p lvl d r) := by
  cases hst : r.st <;> simp only [stepSlot, hst]
  case idle =>
    cases lvl <;> simp only [stepIdle]
    case low => split <;> [exact .move .hdr (by decide); exact .stay hst (by decide)]
    case high => exact .stay hst (by decide)
  case hdr =>
    cases lvl <;> simp only [stepHdr]
    case low => exact .stay hst (by decide)
    case high =>
      split
      next hd => exact .start hst rfl hd
      next => exact .move .idle (by decide)
  case awl =>
    cases lvl <;> simp only [stepAwl]
    case low =>
      split
      next hd =>
        split
        next hn => exact .report hst rfl hd hn
        next => exact .move .hdr (by decide)
      next hd => exact .lowHalf hst rfl (by simpa using hd)
    case high => exact .move .idle (by decide)
  case aw2 =>
    cases lvl <;> simp only [stepAw2]
    case low => exact .move .idle (by decide)
    case high =>
      cases hb : sym t r.pend d with
      | none => exact .move .idle (by decide)
      | some b =>
        by_cases hn : r.bufn = 64
        · simpa only [append_full r b hn] using .overflow b hst rfl hb hn
        · simpa only [append_room r b hn] using .symbol b hst rfl hb hn

/-- A slot's events bear its own number. -/
theorem stepSlot_event_slot {t : Template} {p : SlotNo} {lvl : Level} {d : Dur} {r : SlotRegs} {e : Event}
    (h : e ∈ (stepSlot t p lvl d r).2.toList) : e.slot = p := by
  have hc := stepSlot_cases t p lvl d r
  revert h
  generalize stepSlot t p lvl d r = out at hc
  cases hc <;> simp +contextual [foundEvent, overflowEvent]

theorem stepSlot_events_filter (t : Template) (p : SlotNo) (lvl : Level) (d : Dur) (r : SlotRegs) (q : Nat) :
    (stepSlot t p lvl d r).2.toList.filter (fun e => e.slot.toNat = q) =
      if p.toNat = q then (stepSlot t p lvl d r).2.toList else [] := by
  split
  next h => exact List.filter_eq_self.mpr fun e he => by simp [stepSlot_event_slot he, h]
  next h => exact List.filter_eq_nil_iff.mpr fun e he => by simp [stepSlot_event_slot he, h]

/-- The last-found registers change only at a validated end-of-frame, and then together (R26, R133). -/
theorem stepSlot_last (t : Template) (p : SlotNo) (lvl : Level) (d : Dur) (r : SlotRegs) :
    let r' := (stepSlot t p lvl d r).1
    (r'.lastv = r.lastv ∧ r'.lastn = r.lastn ∧ r'.lastok = r.lastok) ∨
      ((r'.lastv = r.bufv ∧ r'.lastn = r.bufn ∧ r'.lastok = true) ∧ r.st = .awl ∧ t.minb.toNat ≤ r.bufn.toNat ∧
        isEOF t d = true ∧ lvl = .low) := by
  have hc := stepSlot_cases t p lvl d r
  generalize stepSlot t p lvl d r = out at hc
  cases hc with
  | report hst hl hd hn => exact .inr ⟨⟨rfl, rfl, rfl⟩, hst, hn, hd, hl⟩
  | _ => exact .inl ⟨rfl, rfl, rfl⟩

/-- An appended bit extends a code of `n` bits to one of `n + 1` bits (R24, R171). -/
theorem SlotRegs.shiftIn_bufv_lt {r : SlotRegs} (b : Bool) {n : Nat} (h : r.bufv.toNat < 2 ^ n) :
    (r.shiftIn b).bufv.toNat < 2 ^ (n + 1) := by
  have hpow : 2 ^ (n + 1) = 2 ^ n * 2 := Nat.pow_succ 2 n
  rw [SlotRegs.shiftIn_bufv, BitVec.toNat_or]
  refine Nat.or_lt_two_pow ?_ ?_
  · calc (r.bufv <<< 1).toNat ≤ r.bufv.toNat * 2 := by
          rw [BitVec.toNat_shiftLeft, Nat.shiftLeft_eq]; exact Nat.mod_le ..
      _ < 2 ^ (n + 1) := by omega
  · calc ((BitVec.ofBool b).setWidth 64).toNat ≤ 1 := by cases b <;> decide
      _ < 2 ^ (n + 1) := by omega

theorem SlotRegs.shiftIn_bufn_toNat {r : SlotRegs} (b : Bool) (h : r.bufn.toNat < 64) :
    (r.shiftIn b).bufn.toNat = r.bufn.toNat + 1 := by
  rw [SlotRegs.shiftIn_bufn]; bv_omega

/-- Any state but AW2, which alone asks something of PEND, can follow. -/
theorem SlotRegs.Inv.goto {t : Template} {r : SlotRegs} (h : r.Inv t) {st : DecState} (hst : st ≠ .aw2) :
    (r.goto st).Inv t :=
  ⟨h.bufn_le, h.bufv_lt, h.lastn_le, h.last_unwritten, fun hs => absurd hs hst⟩

theorem SlotRegs.Inv.setLast {t : Template} {r : SlotRegs} (h : r.Inv t) (v : Code) {n : Count} (hn : n.toNat ≤ 64) :
    (r.setLast v n).Inv t :=
  ⟨h.bufn_le, h.bufv_lt, hn, fun hok => by simp at hok, h.pend_lt⟩

/-- A `Step` keeps the invariant of its slot. -/
theorem stepSlot_inv {t : Template} {r : SlotRegs} (h : r.Inv t) (p : SlotNo) (lvl : Level) (d : Dur) :
    (stepSlot t p lvl d r).1.Inv t := by
  have hc := stepSlot_cases t p lvl d r
  generalize stepSlot t p lvl d r = out at hc
  cases hc with
  | move st hst => exact h.goto hst
  | start => exact ⟨by simp, by simp, h.lastn_le, h.last_unwritten, fun hs => by simp at hs⟩
  | report => exact (h.setLast _ h.bufn_le).goto (by decide)
  | lowHalf _ _ hd =>
    refine ⟨h.bufn_le, h.bufv_lt, h.lastn_le, h.last_unwritten, fun _ => ?_⟩
    simpa [isEOF] using hd
  | symbol b _ _ _ hn =>
    have hlt : r.bufn.toNat < 64 := Nat.lt_of_le_of_ne h.bufn_le fun he => hn (BitVec.eq_of_toNat_eq he)
    refine ⟨?_, ?_, h.lastn_le, h.last_unwritten, fun hs => by simp at hs⟩
    · rw [SlotRegs.goto_bufn, SlotRegs.shiftIn_bufn_toNat b hlt]; omega
    · rw [SlotRegs.goto_bufn, SlotRegs.shiftIn_bufn_toNat b hlt]; exact SlotRegs.shiftIn_bufv_lt b h.bufv_lt
  | overflow => exact h.goto (by decide)

theorem SlotRegs.reset_inv (t : Template) : SlotRegs.reset.Inv t :=
  ⟨by decide, by decide, by decide, fun _ => ⟨rfl, rfl⟩, fun hs => by cases hs⟩

/-! ### The pass over the slots -/

theorem stepSlots_event_ge {lvl : Level} {d : Dur} {p : Nat} {ts : List Template} {rs : List SlotRegs} {e : Event}
    (hp : p + ts.length ≤ 256) (h : e ∈ (stepSlots lvl d p ts rs).2) : p ≤ e.slot.toNat := by
  induction ts generalizing p rs with
  | nil => simp [stepSlots] at h
  | cons t ts ih =>
    cases rs with
    | nil => simp [stepSlots] at h
    | cons r rs =>
      rw [List.length_cons] at hp
      rw [stepSlots, List.mem_append] at h
      rcases h with h | h
      · rw [stepSlot_event_slot h, BitVec.toNat_ofNat, Nat.mod_eq_of_lt (by omega)]
      · exact Nat.le_of_succ_le (ih (by omega) h)

/-- The events of one slot in a pass are those of its own `Step`. -/
theorem stepSlots_events_filter {lvl : Level} {d : Dur} {p q : Nat} {ts : List Template} {rs : List SlotRegs}
    {t : Template} {r : SlotRegs} (hp : p + ts.length ≤ 256) (ht : ts[q]? = some t) (hr : rs[q]? = some r) :
    (stepSlots lvl d p ts rs).2.filter (fun e => e.slot.toNat = p + q) =
      (stepSlot t (BitVec.ofNat 8 (p + q)) lvl d r).2.toList := by
  induction q generalizing p ts rs with
  | zero =>
    cases ts with
    | nil => simp at ht
    | cons t' ts =>
      cases rs with
      | nil => simp at hr
      | cons r' rs =>
        obtain rfl : t' = t := by simpa using ht
        obtain rfl : r' = r := by simpa using hr
        rw [List.length_cons] at hp
        have hrest : (stepSlots lvl d (p + 1) ts rs).2.filter (fun e => e.slot.toNat = p) = [] :=
          List.filter_eq_nil_iff.mpr fun e he => by
            have := stepSlots_event_ge (by omega) he
            simp; omega
        simp [stepSlots, stepSlot_events_filter, hrest, Nat.mod_eq_of_lt (show p < 256 by omega)]
  | succ q ih =>
    cases ts with
    | nil => simp at ht
    | cons t' ts =>
      cases rs with
      | nil => simp at hr
      | cons r' rs =>
        rw [List.length_cons] at hp
        have hmore := ih (p := p + 1) (ts := ts) (rs := rs) (by omega) (by simpa using ht) (by simpa using hr)
        rw [Nat.add_right_comm, Nat.add_assoc] at hmore
        simp [stepSlots, stepSlot_events_filter, hmore, Nat.mod_eq_of_lt (show p < 256 by omega)]

theorem stepSlots_eq_mapIdx (s : State) (lvl : Level) (d : Dur) (hlen : s.block.slots.length = s.cfg.nDec) :
    (stepSlots lvl d 0 s.cfg.templates s.block.slots).1 =
      s.block.slots.mapIdx fun q r => (stepSlot (s.tpl q) (BitVec.ofNat 8 q) lvl d r).1 := by
  refine List.ext_getElem? fun q => ?_
  rcases Nat.lt_or_ge q s.block.slots.length with hq | hq
  · rw [stepSlots_get lvl d 0 q _ _ _ _ (State.getElem?_templates (hlen ▸ hq)) (State.getElem?_slots hq),
      List.getElem?_mapIdx, State.getElem?_slots hq, Nat.zero_add, Option.map_some]
  · rw [List.getElem?_eq_none (by rwa [stepSlots_length]), List.getElem?_eq_none (by simpa using hq)]

/-! ### What a command does, slot by slot -/

/-- The registers that a command leaves in slot `q`, from that slot's template and registers alone (R25). -/
def slotNext (i : Instr) (q : Nat) (t : Template) (r : SlotRegs) : SlotRegs :=
  match i with
  | .pulse p lvl d => if p.toNat = q then (stepSlot t p lvl d r).1 else r
  | .pulseAll lvl d => (stepSlot t (BitVec.ofNat 8 q) lvl d r).1
  | .reset p => if p.toNat = q then r.goto .idle else r
  | .resetAll => r.goto .idle
  | .loadLast p n key => if p.toNat = q then if n.toNat ≤ 64 then r.setLast (keyValue key) n else r else r
  | .encode _ _ _ | .readEnc _ | .reverse _ _ | .readLast _ | .readState _ | .readTemplate _ => r

/-- The events of slot `q` that a command raises. -/
def slotEvents (i : Instr) (q : Nat) (t : Template) (r : SlotRegs) : List Event :=
  match i with
  | .pulse p lvl d => if p.toNat = q then (stepSlot t p lvl d r).2.toList else []
  | .pulseAll lvl d => (stepSlot t (BitVec.ofNat 8 q) lvl d r).2.toList
  | .reset _ | .resetAll | .encode _ _ _ | .readEnc _ | .reverse _ _ | .loadLast _ _ _ | .readLast _ | .readState _
  | .readTemplate _ => []

/-- What a command outside the encoder answers about a slot that exists. -/
def slotResponse (i : Instr) (t : Template) (r : SlotRegs) : Response :=
  match i with
  | .loadLast _ n _ => ⟨if n.toNat ≤ 64 then .ok else .badNb, .empty⟩
  | .readLast _ => ⟨.ok, .last r.lastok r.lastn r.lastv⟩
  | .readState _ => ⟨.ok, .regs r.st.code r.pend r.bufn r.bufv⟩
  | .readTemplate _ => ⟨.ok, .template t.short t.long t.tol t.k t.minb⟩
  | .pulse _ _ _ | .pulseAll _ _ | .reset _ | .resetAll | .encode _ _ _ | .readEnc _ | .reverse _ _ => ⟨.ok, .empty⟩

/-- The block with the registers that a command leaves in each slot. -/
def State.slotsNext (s : State) (i : Instr) : Block :=
  { s.block with slots := s.block.slots.mapIdx fun q r => slotNext i q (s.tpl q) r }

/-- A command of one slot writes no register of another (R25). -/
theorem slotNext_of_other {i : Instr} {p : SlotNo} {q : Nat} (t : Template) (r : SlotRegs)
    (hi : i.slotOperand = some p) (hne : p.toNat ≠ q) : slotNext i q t r = r := by
  cases i <;> cases hi <;> simp [slotNext, hne]

theorem slotEvents_of_other {i : Instr} {p : SlotNo} {q : Nat} (t : Template) (r : SlotRegs)
    (hi : i.slotOperand = some p) (hne : p.toNat ≠ q) : slotEvents i q t r = [] := by
  cases i <;> cases hi <;> simp [slotEvents, hne]

theorem State.slotsNext_eq_block {s : State} {i : Instr}
    (h : ∀ q, q < s.block.slots.length → ∀ r, slotNext i q (s.tpl q) r = r) : s.slotsNext i = s.block := by
  have hs : (s.block.slots.mapIdx fun q r => slotNext i q (s.tpl q) r) = s.block.slots :=
    List.ext_getElem (by simp) fun q _ hq => by simp [h q hq]
  rw [State.slotsNext, hs]

/-- A command of one slot writes the registers of that slot. -/
theorem State.slotsNext_eq_setReg (s : State) (p : Nat) {i : Instr} (f : SlotRegs → SlotRegs)
    (h : ∀ q r, slotNext i q (s.tpl q) r = if p = q then f r else r) :
    s.slotsNext i = (s.setReg p (f (s.reg p))).block := by
  simp only [State.slotsNext, h, State.slots_mapIdx_at]; rfl

/-- The slot check of a command: the command runs, or no slot is written. -/
theorem withSlot_block {i : Instr} {p : SlotNo} {s s' : State} {k : Result}
    (hlen : s.block.slots.length = s.cfg.nDec) (hi : i.slotOperand = some p) (h : withSlot p s k = .next s') :
    k = .next s' ∨ s'.block = s.slotsNext i := by
  rcases withSlot_next h with ⟨-, h⟩ | ⟨hp, rfl⟩
  · exact .inl h
  · exact .inr (State.slotsNext_eq_block (s := s) fun q hq r => slotNext_of_other _ r hi (by omega)).symm

/-- A command that writes no slot, and answers the state it found, leaves each slot as `slotNext` says. -/
theorem respond_block {i : Instr} {st : Status} {f : Payload} {s s' : State} (hi : ∀ q t r, slotNext i q t r = r)
    (h : respond st f s = .next s') : s'.block = s.slotsNext i := by
  rw [respond_next h, State.slotsNext_eq_block fun q _ r => hi q _ r, State.emit_block]

/-- The block after a command that answers: each slot as `slotNext` says and the encoder as before, or an encoded sequence written. -/
theorem exec_block {i : Instr} {s s' : State} (hlen : s.block.slots.length = s.cfg.nDec) (h : exec i s = .next s') :
    s'.block = s.slotsNext i ∨
      ∃ p n v, i = .encode p n v ∧ n.toNat ≤ 64 ∧ 2 + 2 * n.toNat ≤ s.cfg.encCap ∧
        s'.block = (s.writeEnc (encodePulses (s.tpl p.toNat) v n.toNat)).block := by
  cases i with
  | pulse p lvl d =>
    refine (withSlot_block hlen rfl h).elim (fun h => .inl ?_) .inl
    rw [finish_next h]
    refine (State.slotsNext_eq_setReg s p.toNat (fun r => (stepSlot (s.tpl p.toNat) p lvl d r).1) fun q r => ?_).symm
    simp only [slotNext]; split <;> simp_all
  | pulseAll lvl d =>
    left; rw [finish_next h]
    simp only [State.emit_block, State.delivered_block, State.slotsNext, slotNext, ← stepSlots_eq_mapIdx s lvl d hlen]
    rfl
  | reset p =>
    refine (withSlot_block hlen rfl h).elim (fun h => .inl ?_) .inl
    rw [respond_next h]
    exact (State.slotsNext_eq_setReg s p.toNat (fun r => r.goto .idle) fun _ _ => rfl).symm
  | resetAll =>
    left; rw [respond_next h]
    have hmap : (s.block.slots.mapIdx fun _ r => r.goto .idle) = s.block.slots.map fun r => r.goto .idle :=
      List.ext_getElem (by simp) (by simp)
    simp [State.slotsNext, slotNext, State.setRegs, hmap]
  | encode p n v =>
    refine (withSlot_block hlen rfl h).elim (fun h => ?_) .inl
    rcases withCount_next h with ⟨hn, h⟩ | ⟨-, rfl⟩
    · split at h
      next => exact .inl (respond_block (fun _ _ _ => rfl) h)
      next hc => exact .inr ⟨p, n, v, rfl, hn, Nat.le_of_not_lt hc, by rw [respond_next h]; rfl⟩
    · exact .inl (respond_block (fun _ _ _ => rfl) rfl)
  | readEnc j =>
    simp only [exec, execReadEnc] at h
    split at h <;> exact .inl (respond_block (fun _ _ _ => rfl) h)
  | reverse n v =>
    rcases withCount_next h with ⟨-, h⟩ | ⟨-, rfl⟩
    · exact .inl (respond_block (fun _ _ _ => rfl) h)
    · exact .inl (respond_block (fun _ _ _ => rfl) rfl)
  | loadLast p n key =>
    refine (withSlot_block hlen rfl h).elim (fun h => .inl ?_) .inl
    rcases withCount_next h with ⟨hn, h⟩ | ⟨hn, rfl⟩
    · rw [respond_next h]
      refine (State.slotsNext_eq_setReg s p.toNat (fun r => r.setLast (keyValue key) n) fun q r => ?_).symm
      simp [slotNext, hn]
    · exact respond_block (fun _ _ _ => by simp [slotNext, Nat.not_le.mpr hn]) rfl
  | readLast p | readState p | readTemplate p =>
    exact (withSlot_block hlen rfl h).elim (fun h => .inl (respond_block (fun _ _ _ => rfl) h)) .inl

/-- Each slot ends a command as that slot's own template, registers and number make it (R25). -/
theorem exec_reg {i : Instr} {s s' : State} {q : Nat} (hlen : s.block.slots.length = s.cfg.nDec) (hq : q < s.cfg.nDec)
    (h : exec i s = .next s') : s'.reg q = slotNext i q (s.tpl q) (s.reg q) := by
  have hq : q < s.block.slots.length := hlen ▸ hq
  rcases exec_block hlen h with hb | ⟨p, n, v, rfl, -, -, hb⟩
  · simp [State.reg, hb, State.slotsNext, List.getD_eq_getElem?_getD, hq]
  · simp [State.reg, hb, slotNext]

/-- What a command that answers puts on the trace, as slot `q` sees it: its own events, and its own answer. -/
def SlotSees (i : Instr) (s s' : State) (q : Nat) : Prop :=
  ∃ (es : List Event) (a : Response),
    s'.trace = s.trace ++ es.map PortRecord.event ++ [.response a] ∧
    es.filter (fun e => e.slot.toNat = q) = slotEvents i q (s.tpl q) (s.reg q) ∧
    (∀ p : SlotNo, i.slotOperand = some p → p.toNat = q → i.encoderSide = false → a = slotResponse i (s.tpl q) (s.reg q))

theorem SlotSees.of_quiet {i : Instr} {s t : State} {q : Nat} {a : Response} (ht : t.trace = s.trace)
    (he : slotEvents i q (s.tpl q) (s.reg q) = [])
    (ha : ∀ p : SlotNo, i.slotOperand = some p → p.toNat = q → i.encoderSide = false →
      a = slotResponse i (s.tpl q) (s.reg q)) : SlotSees i s (t.emit (.response a)) q :=
  ⟨[], a, by simp [ht], by simp [he], ha⟩

/-- The slot check of a command: the command runs, or the answer is of a slot other than `q`. -/
theorem withSlot_sees {i : Instr} {p : SlotNo} {s s' : State} {k : Result} {q : Nat} (hq : q < s.cfg.nDec)
    (hi : i.slotOperand = some p) (h : withSlot p s k = .next s') : k = .next s' ∨ SlotSees i s s' q := by
  rcases withSlot_next h with ⟨-, h⟩ | ⟨hp, rfl⟩
  · exact .inl h
  · refine .inr (.of_quiet rfl (slotEvents_of_other _ _ hi (by omega)) fun p' hi' hq' => ?_)
    cases hi.symm.trans hi'
    omega

/-- A slot's events and answers are those of its own template and registers; the other slots' events bear other numbers (R25). -/
theorem exec_sees {i : Instr} {s s' : State} {q : Nat} (hlen : s.block.slots.length = s.cfg.nDec)
    (hn : s.cfg.nDec ≤ 256) (hq : q < s.cfg.nDec) (h : exec i s = .next s') : SlotSees i s s' q := by
  cases i with
  | pulse p lvl d =>
    refine (withSlot_sees hq rfl h).elim (fun h => ?_) id
    refine ⟨_, ⟨.ok, .empty⟩, by rw [finish_next h]; rfl, ?_, fun _ _ _ _ => rfl⟩
    simp only [stepSlot_events_filter, slotEvents]
    split <;> simp_all
  | pulseAll lvl d =>
    refine ⟨_, ⟨.ok, .empty⟩, by rw [finish_next h]; rfl, ?_, fun _ _ _ _ => rfl⟩
    have hev := stepSlots_events_filter (lvl := lvl) (d := d) (p := 0) ((Nat.zero_add _).trans_le hn)
      (State.getElem?_templates hq) (State.getElem?_slots (hlen ▸ hq))
    simpa only [Nat.zero_add, slotEvents] using hev
  | reset p =>
    refine (withSlot_sees hq rfl h).elim (fun h => ?_) id
    rw [respond_next h]
    exact .of_quiet rfl rfl fun _ _ _ _ => rfl
  | resetAll =>
    rw [respond_next h]
    exact .of_quiet rfl rfl fun _ hi => by cases hi
  | encode p n v =>
    refine (withSlot_sees hq rfl h).elim (fun h => ?_) id
    rcases withCount_next h with ⟨-, h⟩ | ⟨-, rfl⟩
    · split at h <;> rw [respond_next h] <;> exact .of_quiet rfl rfl fun _ _ _ he => by cases he
    · exact .of_quiet rfl rfl fun _ _ _ he => by cases he
  | readEnc j =>
    simp only [exec, execReadEnc] at h
    split at h <;> rw [respond_next h] <;> exact .of_quiet rfl rfl fun _ hi => by cases hi
  | reverse n v =>
    rcases withCount_next h with ⟨-, h⟩ | ⟨-, rfl⟩
    · rw [respond_next h]; exact .of_quiet rfl rfl fun _ hi => by cases hi
    · exact .of_quiet rfl rfl fun _ hi => by cases hi
  | loadLast p n key =>
    refine (withSlot_sees hq rfl h).elim (fun h => ?_) id
    rcases withCount_next h with ⟨hn, h⟩ | ⟨hn, rfl⟩
    · rw [respond_next h]
      exact .of_quiet rfl rfl fun _ _ _ _ => by simp [slotResponse, hn]
    · exact .of_quiet rfl rfl fun _ _ _ _ => by simp [slotResponse, Nat.not_le.mpr hn]
  | readLast p | readState p | readTemplate p =>
    refine (withSlot_sees hq rfl h).elim (fun h => ?_) id
    rw [respond_next h]
    exact .of_quiet rfl rfl fun _ hi hp _ => by cases hi; cases hp; rfl

/-! ### The invariant -/

/-- A command leaves a slot that meets its invariant in one that does. -/
theorem slotNext_inv {t : Template} {r : SlotRegs} (h : r.Inv t) (i : Instr) (q : Nat) : (slotNext i q t r).Inv t := by
  cases i with
  | pulse p lvl d => rw [slotNext]; split <;> [exact stepSlot_inv h p lvl d; exact h]
  | pulseAll lvl d => exact stepSlot_inv h _ lvl d
  | reset p => rw [slotNext]; split <;> [exact h.goto (by decide); exact h]
  | resetAll => exact h.goto (by decide)
  | loadLast p n key =>
    rw [slotNext]
    split
    · split
      next hn => exact h.setLast _ hn
      next => exact h
    · exact h
  | encode | readEnc | reverse | readLast | readState | readTemplate => exact h

/-- Pulses that begin low and alternate (R197). -/
def Alternates (ps : List Pulse) : Prop :=
  ∀ (i : Nat) (h : i < ps.length), ps[i].lvl = if i % 2 = 0 then .low else .high

theorem Alternates.low_high_cons {ps : List Pulse} (h : Alternates ps) (a b : Dur) :
    Alternates (⟨.low, a⟩ :: ⟨.high, b⟩ :: ps)
  | 0, _ => rfl
  | 1, _ => rfl
  | i + 2, hi => by simpa using h i (by simpa using hi)

theorem encodePulses_alternates (t : Template) (v : Code) (n : Nat) : Alternates (encodePulses t v n) := by
  refine Alternates.low_high_cons ?_ _ _
  induction List.range n with
  | nil => exact fun i hi => absurd hi (Nat.not_lt_zero i)
  | cons j js ih =>
    cases hb : v.getLsbD (n - 1 - j) <;> simpa [symbolPulses, hb] using ih.low_high_cons _ _

/-- The invariant speaks of the configuration and the block alone. -/
theorem State.Inv.congr {s s' : State} (h : s.Inv) (hc : s'.cfg = s.cfg) (hb : s'.block = s.block) : s'.Inv := by
  obtain ⟨c, b, _, _, _⟩ := s
  obtain ⟨c', b', _, _, _⟩ := s'
  cases hc; cases hb
  exact ⟨h.cfg_wf, h.slots_length, h.encBuf_length, h.encLen_even, h.enc_alternates, h.slots_inv⟩

theorem exec_cfg {i : Instr} {s s' : State} (h : exec i s = .next s') : s'.cfg = s.cfg := by
  obtain ⟨b, es, r, rfl, -⟩ := exec_answers h; rfl

theorem State.powerOn_inv {c : Config} (h : c.wf = true) : (State.powerOn c).Inv where
  cfg_wf := h
  slots_length := by simp [Block.reset]
  encBuf_length := by simp [Block.reset]
  encLen_even := .inl rfl
  enc_alternates i hi := absurd hi (Nat.not_lt_zero i)
  slots_inv p hp := by
    have hr : (State.powerOn c).reg p = SlotRegs.reset := by
      simp [State.reg, Block.reset, List.getD_eq_getElem?_getD, show p < c.nDec from hp]
    rw [hr]; exact SlotRegs.reset_inv _

theorem exec_inv {i : Instr} {s s' : State} (hs : s.Inv) (h : exec i s = .next s') : s'.Inv := by
  have hc := exec_cfg h
  have hslots : ∀ p, p < s'.cfg.nDec → (s'.reg p).Inv (s'.tpl p) := fun p hp => by
    rw [hc] at hp
    rw [exec_reg hs.slots_length hp h, State.tpl, hc]
    exact slotNext_inv (hs.slots_inv p hp) i p
  rcases exec_block hs.slots_length h with hb | ⟨p, n, v, rfl, hn, hcap, hb⟩
  · have he : ∀ j, s'.encEntry j = s.encEntry j := fun j => by simp [State.encEntry, hb, State.slotsNext]
    exact {
      cfg_wf := hc ▸ hs.cfg_wf
      slots_length := by simpa [hb, hc, State.slotsNext] using hs.slots_length
      encBuf_length := by simpa [hb, hc, State.slotsNext] using hs.encBuf_length
      encLen_even := by simpa [hb, hc, State.slotsNext] using hs.encLen_even
      enc_alternates := by simpa [hb, he, State.slotsNext] using hs.enc_alternates
      slots_inv := hslots }
  · have hlen : s'.block.encLen = 2 + 2 * n.toNat := by simp [hb]
    exact {
      cfg_wf := hc ▸ hs.cfg_wf
      slots_length := by simpa [hb, hc] using hs.slots_length
      encBuf_length := by
        rw [hb, hc, State.writeEnc_length _ _ (by rw [encodePulses_length, hs.encBuf_length]; exact hcap)]
        exact hs.encBuf_length
      encLen_even := by rw [hlen, hc]; omega
      enc_alternates := fun j hj => by
        have hj : j < (encodePulses (s.tpl p.toNat) v n.toNat).length := by simpa [hb] using hj
        have he : s'.encEntry j = (s.writeEnc (encodePulses (s.tpl p.toNat) v n.toNat)).encEntry j := by
          simp only [State.encEntry, hb]
        rw [he, State.encEntry_writeEnc_lt _ _ _ hj]
        exact encodePulses_alternates _ v _ j hj
      slots_inv := hslots }

theorem step_inv {s s' : State} (hs : s.Inv) (h : step s = .next s') : s'.Inv := by
  rcases step_answers h with ⟨-, rfl⟩ | ⟨w, rest, -, -, ⟨i, -, hi⟩ | ⟨-, rfl⟩⟩
  · exact hs
  · exact exec_inv (s := { s with cmds := rest }) (hs.congr rfl rfl) hi
  · exact hs.congr rfl rfl

theorem step_cfg {s s' : State} (h : step s = .next s') : s'.cfg = s.cfg := by
  rcases step_answers h with ⟨-, rfl⟩ | ⟨w, rest, -, ⟨b, es, r, rfl, -⟩, -⟩ <;> rfl

theorem Reachable.cfg {c : Config} {s : State} (h : Reachable c s) : s.cfg = c := by
  induction h with
  | start => rfl
  | next s s' _ hstep ih => exact (step_cfg hstep).trans ih

theorem Reachable.inv {c : Config} {s : State} (hc : c.wf = true) (h : Reachable c s) : s.Inv := by
  induction h with
  | start => exact (State.powerOn_inv hc).congr rfl rfl
  | next s s' _ hstep ih => exact step_inv ih hstep

/-! ### The statements -/

/-- Settles O15: the invariant holds in every reachable state. -/
theorem reachableBuffersAreBounded : Obligations.ReachableBuffersAreBounded := by
  intro c s hc hr
  have hs := hr.inv hc
  refine ⟨fun r hmem => ?_, ?_⟩
  · obtain ⟨q, hq, rfl⟩ := List.mem_iff_getElem.mp hmem
    have hreg : s.reg q = s.block.slots[q] := by simp [State.reg, List.getD_eq_getElem?_getD, hq]
    have hi := hs.slots_inv q (hs.slots_length ▸ hq)
    exact hreg ▸ ⟨hi.bufn_le, hi.bufv_lt⟩
  · have := hs.encLen_even
    rw [hr.cfg] at this
    omega

/-- Settles O28: a slot's registers, events and answers after a command are functions of that slot's own registers and template. -/
theorem slotsAreIsolated : Obligations.SlotsAreIsolated := by
  intro i s u s' u' q hwf hn hq hls hlu ht hr hs hu
  have hn256 := nDec_le_of_wf hwf
  refine ⟨?_, ?_, fun p hp hne => ?_⟩
  · rw [exec_reg hls hq hs, exec_reg hlu (hn ▸ hq) hu, ht, hr]
  · obtain ⟨es, a, htr, hes, ha⟩ := exec_sees hls hn256 hq hs
    obtain ⟨fs, b, hur, hfs, hb⟩ := exec_sees hlu (hn ▸ hn256) (hn ▸ hq) hu
    refine ⟨es, fs, a, b, htr, hur, ?_, fun p hi hp he => ?_⟩
    · rw [hes, hfs, ht, hr]
    · rw [ha p hi hp he, hb p hi hp he, ht, hr]
  · rw [exec_reg hls hq hs, slotNext_of_other _ _ hp hne]

/-- Settles O47: among the commands only PULSE and PULSE_ALL, through `Step`, and LOAD_LAST write the last-found registers. -/
theorem lastFoundHasTwoWritePaths : Obligations.LastFoundHasTwoWritePaths := by
  intro i s s' q hq hlen h
  simp only [exec_reg hlen hq h]
  cases i with
  | pulse p lvl d =>
    rw [slotNext]
    split
    next hp =>
      refine (stepSlot_last (s.tpl q) p lvl d (s.reg q)).imp id fun ⟨hlast, hst, hn, hd, hl⟩ => .inl ?_
      exact ⟨hlast, hst, hn, d, hd, .inr ⟨p, hp, by rw [hl]⟩⟩
    next => exact .inl ⟨rfl, rfl, rfl⟩
  | pulseAll lvl d =>
    refine (stepSlot_last (s.tpl q) (BitVec.ofNat 8 q) lvl d (s.reg q)).imp id fun ⟨hlast, hst, hn, hd, hl⟩ => .inl ?_
    exact ⟨hlast, hst, hn, d, hd, .inl (by rw [hl])⟩
  | loadLast p n key =>
    rw [slotNext]
    split
    next hp =>
      split
      next hn => exact .inr (.inr ⟨p, n, key, hp, rfl, hn, rfl, rfl, rfl⟩)
      next => exact .inl ⟨rfl, rfl, rfl⟩
    next => exact .inl ⟨rfl, rfl, rfl⟩
  | reset p => rw [slotNext]; split <;> exact .inl ⟨rfl, rfl, rfl⟩
  | resetAll | encode | readEnc | reverse | readLast | readState | readTemplate => exact .inl ⟨rfl, rfl, rfl⟩

end Sys2Proof.Machine
end

section
/-! PROOFS. The two sides of the block share nothing: what a command does is decided by its own side, said once for all eleven commands; and the statements of `spec/20_memory.md` R71 and R77. -/

namespace Sys2Proof.Machine

/-! ### The two sides of the block -/

/-- `u` with what the commands of one side depend on taken from `s`: for the encoder's commands the configuration and the encoder, for the others the configuration, the slots and the sink. -/
def State.overlay (encoderSide : Bool) (s u : State) : State :=
  match encoderSide with
  | true => { u with cfg := s.cfg, block := { s.block with slots := u.block.slots } }
  | false => { u with cfg := s.cfg, block := { u.block with slots := s.block.slots }, sink := s.sink }

theorem State.overlay_self (e : Bool) (s : State) : s.overlay e s = s := by
  cases e <;> rfl

@[simp] theorem State.overlay_cfg (e : Bool) (s u : State) : (s.overlay e u).cfg = s.cfg := by
  cases e <;> rfl

theorem State.overlay_emit (e : Bool) (s u : State) (r : PortRecord) :
    (s.overlay e u).emit r = (s.emit r).overlay e { u with trace := u.trace ++ [r] } := by
  cases e <;> rfl

/-- `k` takes `s` to `t` by one side alone: whatever the other side and the trace hold, it leaves that side as in `t`, adds the same records to the trace and keeps the rest. -/
def OneSided (e : Bool) (k : State → Result) (s t : State) : Prop :=
  ∃ records, ∀ u, k (s.overlay e u) = .next (t.overlay e { u with trace := u.trace ++ records })

theorem OneSided.respond {e : Bool} {k : State → Result} {s m t : State} {st : Status} {f : Payload}
    (h : Machine.respond st f m = .next t) (hk : ∀ u, k (s.overlay e u) = Machine.respond st f (m.overlay e u)) :
    OneSided e k s t :=
  ⟨[.response ⟨st, f⟩], fun u => by rw [hk, respond_next h, Machine.respond, State.overlay_emit]⟩

theorem OneSided.withSlot {e : Bool} {k : State → Result} {p : SlotNo} {s t : State}
    (h : Machine.withSlot p s (k s) = .next t) (hk : k s = .next t → OneSided e k s t) :
    OneSided e (fun u => Machine.withSlot p u (k u)) s t := by
  rcases Nat.lt_or_ge p.toNat s.cfg.nDec with hp | hp
  · rw [withSlot_lt hp] at h
    obtain ⟨records, hk⟩ := hk h
    exact ⟨records, fun u => (withSlot_lt (by simpa using hp)).trans (hk u)⟩
  · rw [withSlot_ge hp] at h
    exact .respond h fun u => withSlot_ge (by simpa using hp)

theorem OneSided.withCount {e : Bool} {k : State → Result} {n : Count} {s t : State}
    (h : Machine.withCount n s (k s) = .next t) (hk : k s = .next t → OneSided e k s t) :
    OneSided e (fun u => Machine.withCount n u (k u)) s t := by
  rcases Nat.lt_or_ge 64 n.toNat with hn | hn
  · rw [withCount_gt hn] at h
    exact .respond h fun u => withCount_gt hn
  · rw [withCount_le hn] at h
    obtain ⟨records, hk⟩ := hk h
    exact ⟨records, fun u => (withCount_le hn).trans (hk u)⟩

/-- Whether events are delivered depends on the sink alone. -/
theorem deliver_of_sink_eq {es : List Event} {s s' u : State} (h : deliver es s = .next s') (hu : u.sink = s.sink) :
    deliver es u = .next (u.delivered es) := by
  induction es generalizing s u with
  | nil => simp [deliver, State.delivered]
  | cons e es ih =>
    rw [deliver] at h ⊢
    rw [hu]
    split at h
    next hs =>
      have hd := ih (u := u.emit (.event e)) h hu
      simp only [hd]; simp [State.delivered, State.emit, hu, hs]
    next rest hs =>
      have hd := ih (u := { u with sink := rest }.emit (.event e)) h rfl
      simp only [hd]; simp [State.delivered, State.emit, hu, hs]
    all_goals cases h

theorem OneSided.finish {k : State → Result} {s m t : State} {es : List Event}
    (h : Machine.finish es m = .next t)
    (hk : ∀ u, k (s.overlay false u) = Machine.finish es (m.overlay false u)) : OneSided false k s t := by
  cases hm : deliver es m with
  | next m' =>
    refine ⟨es.map .event ++ [.response ⟨.ok, .empty⟩], fun u => ?_⟩
    rw [hk, Machine.finish, deliver_of_sink_eq hm (u := m.overlay false u) rfl, finish_next h]
    simp [Machine.respond, State.emit, State.delivered, State.overlay]
  | fault | refused => simp [Machine.finish, hm] at h

/-- The encoder's commands neither read nor write the slots or the sink, the others neither read nor write the encoder (R77). -/
theorem exec_oneSided {i : Instr} {s t : State} (h : exec i s = .next t) : OneSided i.encoderSide (exec i) s t := by
  cases i with
  | pulse p lvl d => exact .withSlot h fun h => .finish h fun _ => rfl
  | pulseAll lvl d => exact .finish h fun _ => rfl
  | reset p => exact .withSlot h fun h => .respond h fun _ => rfl
  | resetAll => exact .respond h fun _ => rfl
  | encode p n v =>
    refine .withSlot h fun h => .withCount h fun h => ?_
    split at h
    next hc => exact .respond h fun _ => if_pos hc
    next hc => exact .respond h fun _ => if_neg hc
  | readEnc j =>
    simp only [exec, execReadEnc] at h
    split at h
    next hj => exact .respond h fun _ => if_pos hj
    next hj => exact .respond h fun _ => if_neg hj
  | reverse n v => exact .withCount h fun h => .respond h fun _ => rfl
  | loadLast p n key => exact .withSlot h fun h => .withCount h fun h => .respond h fun _ => rfl
  | readLast p | readState p | readTemplate p => exact .withSlot h fun h => .respond h fun _ => rfl

/-- A command that answers, over the state it found and over any other: it leaves its own side as in `t` and the rest as it was but for the records. -/
theorem exec_overlay {e : Bool} {i : Instr} {s t : State} (he : i.encoderSide = e) (h : exec i s = .next t) :
    ∃ records, t = t.overlay e { s with trace := s.trace ++ records } ∧
      ∀ u, exec i (s.overlay e u) = .next (t.overlay e { u with trace := u.trace ++ records }) := by
  subst he
  obtain ⟨records, hk⟩ := exec_oneSided h
  have hself := hk s
  rw [State.overlay_self, h] at hself
  exact ⟨records, Host.Outcome.next.inj hself, hk⟩

/-- A command of the encoder leaves the configuration, the slots and the sink. -/
theorem exec_encoder_overlay {i : Instr} {s t : State} (hi : i.encoderSide = true) (h : exec i s = .next t)
    (u : State) : t.overlay false u = s.overlay false u := by
  obtain ⟨records, ht, -⟩ := exec_overlay hi h
  calc t.overlay false u = { s with cfg := t.cfg }.overlay false u := congrArg (·.overlay false u) ht
    _ = s.overlay false u := by rw [exec_cfg h]

/-! ### Sequences of commands -/

theorem runCommands_cons_next {i : Instr} {is : List Instr} {s t : State} (h : runCommands (i :: is) s = .next t) :
    ∃ m, exec i s = .next m ∧ runCommands is m = .next t := by
  rw [runCommands] at h
  split at h
  next m hm => exact ⟨m, hm, h⟩
  all_goals cases h

/-- A sequence without its encoder's commands answers too, with any encoder and trace, and ends with the same configuration, slots and sink (R77). -/
theorem runCommands_filter_encoder {is : List Instr} {s t u : State} (hu : s.overlay false u = u)
    (h : runCommands is s = .next t) :
    ∃ v, runCommands (is.filter fun i => !i.encoderSide) u = .next v ∧ t.overlay false v = v := by
  induction is generalizing s u with
  | nil => cases h; exact ⟨u, rfl, hu⟩
  | cons i is ih =>
    obtain ⟨m, hm, h⟩ := runCommands_cons_next h
    cases hi : i.encoderSide with
    | true => simpa [hi] using ih ((exec_encoder_overlay hi hm u).trans hu) h
    | false =>
      obtain ⟨records, -, hk⟩ := exec_overlay hi hm
      have hiu := hk u
      rw [hu] at hiu
      simpa [hi, runCommands, hiu] using ih (u := m.overlay false { u with trace := u.trace ++ records }) rfl h

/-! ### The statements -/

/-- Settles O48: each command is decided by its own side of the block, and a sequence's slots by the commands of their side. -/
theorem encoderAndSlotsShareNothing : Obligations.EncoderAndSlotsShareNothing := by
  refine ⟨fun i s t x hi h => ?_, fun i s t b l hi h => ?_, fun is s t h => ?_⟩
  · obtain ⟨records, ht, hk⟩ := exec_overlay hi h
    exact ⟨congrArg (·.block.slots) ht,
      (hk (s.setRegs x)).trans (congrArg (fun t => Host.Outcome.next (t.setRegs x)) ht.symm)⟩
  · obtain ⟨records, ht, hk⟩ := exec_overlay hi h
    exact ⟨congrArg (·.block.encBuf) ht, congrArg (·.block.encLen) ht,
      (hk { s with block := { s.block with encBuf := b, encLen := l } }).trans
        (congrArg (fun t => Host.Outcome.next { t with block := { t.block with encBuf := b, encLen := l } }) ht.symm)⟩
  · obtain ⟨v, hv, htv⟩ := runCommands_filter_encoder (State.overlay_self false s) h
    exact ⟨v, hv, (congrArg (·.block.slots) htv).symm⟩

/-- Settles O49: a step that takes a word answers it, and an answer is some events and then one response. -/
theorem oneResponseAfterTheEvents : Obligations.OneResponseAfterTheEvents := by
  intro s s' w rest hw h
  rcases step_answers h with ⟨hnil, -⟩ | ⟨w, rest, -, ⟨b, es, r, rfl, -⟩, -⟩
  · simp [hw] at hnil
  · exact ⟨es, r, rfl⟩

end Sys2Proof.Machine
end

section
/-! PROOFS. The decoder against the table of R83 field by field, decode and encode as each other's inverse, and the statements on command words (`spec/30_encoding.md` R85, R86, R88, R92). -/

namespace Sys2Proof

open Sys2Proof.Machine

/-! ### The rows of R82 and R83 -/

/-- The number of an opcode (R82). -/
def Opcode.number : Opcode → BitVec 8
  | .pulse => 0x01
  | .pulseAll => 0x02
  | .reset => 0x03
  | .resetAll => 0x04
  | .encode => 0x05
  | .readEnc => 0x06
  | .reverse => 0x07
  | .loadLast => 0x08
  | .readLast => 0x09
  | .readState => 0x0A
  | .readTemplate => 0x0B

/-- The row of R83 for an opcode: the fields that it does not use are zero. -/
def Opcode.ZeroFields (w : CmdWord) : Opcode → Prop
  | .pulse => w.nb = 0 ∧ w.rsv = 0 ∧ w.val = 0
  | .pulseAll => w.slot = 0 ∧ w.nb = 0 ∧ w.rsv = 0 ∧ w.val = 0
  | .resetAll => w.slot = 0 ∧ w.lvl = 0 ∧ w.nb = 0 ∧ w.rsv = 0 ∧ w.dur = 0 ∧ w.val = 0
  | .encode => w.lvl = 0 ∧ w.rsv = 0 ∧ w.dur = 0
  | .readEnc => w.slot = 0 ∧ w.lvl = 0 ∧ w.nb = 0 ∧ w.rsv = 0 ∧ w.val = 0
  | .reverse => w.slot = 0 ∧ w.lvl = 0 ∧ w.rsv = 0 ∧ w.dur = 0
  | .loadLast => w.lvl = 0 ∧ w.rsv = 0 ∧ w.dur = 0 ∧ w.valHigh = 0
  | .reset | .readLast | .readState | .readTemplate => w.lvl = 0 ∧ w.nb = 0 ∧ w.rsv = 0 ∧ w.dur = 0 ∧ w.val = 0

/-- A word selects an opcode: OP is its number, and the fields that it does not use are zero. -/
def Opcode.Selects (w : CmdWord) (o : Opcode) : Prop := w.op = o.number ∧ o.ZeroFields w

theorem Opcode.ofByte_eq_some_iff {b : BitVec 8} {o : Opcode} : Opcode.ofByte b = some o ↔ b = o.number := by
  constructor
  · intro h
    unfold Opcode.ofByte at h
    repeat' split at h
    all_goals cases h
    all_goals assumption
  · rintro rfl
    cases o <;> rfl

/-- `LegalWord` is the disjunction of the opcodes' rows. -/
theorem legalWord_iff_selects (w : CmdWord) : LegalWord w ↔ ∃ o : Opcode, o.Selects w := by
  constructor
  · rintro (h | h | h | h | h | h | h | h | h | h | h)
    exacts [⟨.pulse, h⟩, ⟨.pulseAll, h⟩, ⟨.reset, h⟩, ⟨.resetAll, h⟩, ⟨.encode, h⟩, ⟨.readEnc, h⟩, ⟨.reverse, h⟩,
      ⟨.loadLast, h⟩, ⟨.readLast, h⟩, ⟨.readState, h⟩, ⟨.readTemplate, h⟩]
  · rintro ⟨o, hop, hz⟩
    unfold LegalWord
    cases o <;> simp_all [Opcode.ZeroFields, Opcode.number]

theorem Opcode.packWord_mask (o : Opcode) :
    packWord (CmdWord.val o.mask) (CmdWord.dur o.mask) (CmdWord.rsv o.mask) (CmdWord.nb o.mask) (CmdWord.lvl o.mask)
      (CmdWord.slot o.mask) 0xFF = o.mask := by
  have hop : CmdWord.op o.mask = 0xFF := by cases o <;> rfl
  rw [← hop, packWord_fields]

theorem Opcode.packWord_number (o : Opcode) : packWord 0 0 0 0 0 0 o.number = o.pattern := by cases o <;> rfl

/-- The mask and the match of an opcode say what its row says. -/
theorem Opcode.and_mask_eq_pattern_iff (w : CmdWord) (o : Opcode) : w &&& o.mask = o.pattern ↔ o.Selects w := by
  rw [← o.packWord_mask, ← o.packWord_number, and_packWord_eq_iff]
  have hhigh := and_high_eq_zero w
  cases o <;> simp [Selects, ZeroFields, mask, number, CmdWord.val, CmdWord.dur, CmdWord.rsv, CmdWord.nb, CmdWord.lvl,
    CmdWord.slot] at hhigh ⊢ <;> tauto

/-! ### Decode and encode -/

theorem decode_eq_ok_iff (w : CmdWord) (i : Instr) :
    decode w = .ok i ↔ ∃ o : Opcode, o.Selects w ∧ o.assemble w = i := by
  unfold decode
  constructor
  · intro h
    split at h
    next => cases h
    next o _ =>
      split at h
      next hm => exact ⟨o, (Opcode.and_mask_eq_pattern_iff w o).mp hm, Except.ok.inj h⟩
      next => cases h
  · rintro ⟨o, ho, rfl⟩
    simp [Opcode.ofByte_eq_some_iff.mpr ho.1, (Opcode.and_mask_eq_pattern_iff w o).mpr ho]

/-- With a zero upper half, VAL is the zero-extended KEY (R84). -/
theorem key_setWidth_of_valHigh {w : CmdWord} (h : w.valHigh = 0) : w.key.setWidth 64 = w.val := by
  have hhigh := congrArg BitVec.toNat ((CmdWord.valHigh_eq w).symm.trans h)
  have hlt : w.val.toNat < 2 ^ 64 := w.val.isLt
  refine BitVec.eq_of_toNat_eq ?_
  simp [CmdWord.key_eq, Nat.shiftRight_eq_div_pow] at hhigh ⊢
  omega

/-- The fields that the opcode uses, put back beside the zero ones, are the word. -/
theorem encode_assemble {w : CmdWord} {o : Opcode} (h : o.Selects w) : encode (o.assemble w) = w := by
  obtain ⟨hop, hz⟩ := h
  conv_rhs => rw [← packWord_fields w]
  cases o <;> simp_all [Opcode.ZeroFields, Opcode.number, Opcode.assemble, encode, key_setWidth_of_valHigh]

theorem Opcode.selects_encode (i : Instr) : i.opcode.Selects (Sys2Proof.encode i) := by
  refine (and_mask_eq_pattern_iff _ _).mp ?_
  cases i
  exacts [Laws.RowMatch.pulse _ _ _, Laws.RowMatch.pulseAll _ _, Laws.RowMatch.reset _, Laws.RowMatch.resetAll,
    Laws.RowMatch.encode _ _ _, Laws.RowMatch.readEnc _, Laws.RowMatch.reverse _ _, Laws.RowMatch.loadLast _ _ _,
    Laws.RowMatch.readLast _, Laws.RowMatch.readState _, Laws.RowMatch.readTemplate _]

theorem assemble_encode (i : Instr) : i.opcode.assemble (encode i) = i := by
  cases i <;> simp [Instr.opcode, Opcode.assemble, encode, CmdWord.key_eq]

theorem decode_encode (i : Instr) : decode (encode i) = .ok i :=
  (decode_eq_ok_iff _ _).mpr ⟨i.opcode, Opcode.selects_encode i, assemble_encode i⟩

theorem encode_of_decode {w : CmdWord} {i : Instr} (h : decode w = .ok i) : encode i = w := by
  obtain ⟨o, ho, rfl⟩ := (decode_eq_ok_iff w i).mp h
  exact encode_assemble ho

theorem legalWord_iff_decode (w : CmdWord) : LegalWord w ↔ ∃ i, decode w = .ok i := by
  simp [legalWord_iff_selects, decode_eq_ok_iff]

theorem decode_of_not_legal {w : CmdWord} (h : ¬ LegalWord w) : ∃ e, decode w = .error e := by
  cases hd : decode w with
  | ok i => exact absurd ((legalWord_iff_decode w).mpr ⟨i, hd⟩) h
  | error e => exact ⟨e, rfl⟩

theorem op_of_legal {w : CmdWord} (h : LegalWord w) : 1 ≤ w.op.toNat ∧ w.op.toNat ≤ 0x0B := by
  obtain ⟨o, hop, -⟩ := (legalWord_iff_selects w).mp h
  rw [hop]
  cases o <;> decide

end Sys2Proof

namespace Sys2Proof.Machine

/-! ### The step that takes a word -/

theorem step_cons {s : State} {w : CmdWord} {rest : List CmdWord} (hc : s.cfg.wf = true) (hw : s.cmds = w :: rest) :
    step s = runWord w { s with cmds := rest } := by
  rw [step, stepPort, if_pos hc, acceptCommand, hw]

theorem runWord_of_decode {w : CmdWord} {i : Instr} (h : decode w = .ok i) (s : State) : runWord w s = exec i s := by
  rw [runWord, h]

theorem runWord_of_not_legal {w : CmdWord} (h : ¬ LegalWord w) (s : State) : runWord w s = reject .illegal s := by
  obtain ⟨e, he⟩ := decode_of_not_legal h
  rw [runWord, he]

/-! ### The statements -/

/-- Settles O2: a legal word is the word of the command it decodes to, and by `decode_encode` of no other; the word of any command decodes, so it is legal. -/
theorem decoderIsTotalOverWords : Obligations.DecoderIsTotalOverWords := by
  intro w
  by_cases hw : LegalWord w
  · obtain ⟨i, hi⟩ := (legalWord_iff_decode w).mp hw
    refine .inl ⟨hw, i, hi, encode_of_decode hi, ?_⟩
    rintro j rfl
    exact Except.ok.inj ((decode_encode j).symm.trans hi)
  · refine .inr ⟨hw, decode_of_not_legal hw, ?_⟩
    rintro i rfl
    exact hw ((legalWord_iff_decode _).mpr ⟨i, decode_encode i⟩)

/-- Settles O4: a word that is not legal does not decode, and the numbers of the opcodes are 1 to 11. -/
theorem illegalWordsAreRejectedWithoutEffect : Obligations.IllegalWordsAreRejectedWithoutEffect := by
  have hreserved : ∀ w : CmdWord, w.op = 0 ∨ 0x0C ≤ w.op.toNat → ¬ LegalWord w := fun w hop hl => by
    obtain ⟨hlo, hhi⟩ := op_of_legal hl
    rcases hop with hop | hop
    · simp [hop] at hlo
    · omega
  refine ⟨fun s w rest hc hw hl => ?_, hreserved, hreserved 0 (.inl rfl)⟩
  rw [step_cons hc hw, runWord_of_not_legal hl]
  rfl

/-- Settles O5, by evaluating the encoder and the decoder on the words of the table. -/
theorem workedEncodingsHold : Obligations.WorkedEncodingsHold := by
  unfold Obligations.WorkedEncodingsHold
  decide

end Sys2Proof.Machine
end

section
/-! PROOFS. The checks of `spec/30_encoding.md` R87 in their order: the status they give a command, and that the command ends with it. -/

namespace Sys2Proof

open Sys2Proof.Machine

/-! ### The status of a command -/

/-- Check 3, before a status that later checks give: BAD_SLOT if the command uses SLOT and the slot does not exist. -/
def Instr.slotCheck (i : Instr) (s : State) (st : Status) : Status :=
  match i.slotOperand with
  | some p => if p.toNat < s.cfg.nDec then st else .badSlot
  | none => st

/-- Check 4, before a status that later checks give: BAD_NB if the command uses NB and the count is above 64. -/
def Instr.countCheck (i : Instr) (st : Status) : Status :=
  match i.countOperand with
  | some n => if n.toNat ≤ 64 then st else .badNb
  | none => st

/-- Check 5, the command's own: ENC_OVERFLOW for ENCODE, BAD_INDEX for READ_ENC. -/
def Instr.ownCheck (i : Instr) (s : State) : Status :=
  match i with
  | .encode _ n _ => if s.cfg.encCap < 2 + 2 * n.toNat then .encOverflow else .ok
  | .readEnc k => if s.block.encLen ≤ k.toNat then .badIndex else .ok
  | _ => .ok

/-- The status of a command: the first of checks 3 to 5 that fails. -/
def Instr.status (i : Instr) (s : State) : Status := i.slotCheck s (i.countCheck (i.ownCheck s))

/-- The status of the command that a word selects, from the fields of the word. -/
theorem status_assemble {w : CmdWord} {o : Opcode} (h : o.Selects w) (s : State) :
    (o.assemble w).status s =
      if w.op ∈ ([0x01, 0x03, 0x05, 0x08, 0x09, 0x0A, 0x0B] : List (BitVec 8)) → w.slot.toNat < s.cfg.nDec then
        if w.op ∈ ([0x05, 0x07, 0x08] : List (BitVec 8)) → w.nb.toNat ≤ 64 then
          if w.op = 0x05 ∧ s.cfg.encCap < 2 + 2 * w.nb.toNat then .encOverflow
          else if w.op = 0x06 ∧ s.block.encLen ≤ w.dur.toNat then .badIndex
          else .ok
        else .badNb
      else .badSlot := by
  rw [h.1]
  cases o <;> simp [Opcode.number, Opcode.assemble, Instr.status, Instr.slotCheck, Instr.countCheck, Instr.ownCheck,
    Instr.slotOperand, Instr.countOperand]

end Sys2Proof

namespace Sys2Proof.Machine

/-! ### A command ends with its status -/

/-- A command's run from `s` ends with a response of status `st`, the block written only if `st` is OK. -/
def EndsWith (s : State) (k : Result) (st : Status) : Prop :=
  ∃ b es f, k = .next (s.after b es ⟨st, f⟩) ∧ (st ≠ .ok → b = s.block)

theorem EndsWith.rejected (s : State) (st : Status) (f : Payload) : EndsWith s (respond st f s) st :=
  ⟨s.block, [], f, by simp [respond, State.emit, State.after], fun _ => rfl⟩

theorem EndsWith.ok {s t : State} {f : Payload} (ht : t = { s with block := t.block }) :
    EndsWith s (respond .ok f t) .ok :=
  ⟨t.block, [], f, by rw [ht]; simp [respond, State.emit, State.after], fun h => absurd rfl h⟩

theorem EndsWith.finish {s t : State} {es : List Event} (hs : s.sinkAccepts) (ht : t = { s with block := t.block }) :
    EndsWith s (Machine.finish es t) .ok := by
  have hsink : t.sinkAccepts := by rw [ht]; exact hs
  refine ⟨t.block, es, .empty, ?_, fun h => absurd rfl h⟩
  rw [finish_accepts hsink, ht]
  simp [State.emit, State.delivered, State.after]

theorem EndsWith.withSlot {s : State} {p : SlotNo} {k : Result} {st : Status} (h : EndsWith s k st) :
    EndsWith s (Machine.withSlot p s k) (if p.toNat < s.cfg.nDec then st else .badSlot) := by
  unfold Machine.withSlot
  split
  · exact h
  · exact .rejected s _ _

theorem EndsWith.withCount {s : State} {n : Count} {k : Result} {st : Status} (h : EndsWith s k st) :
    EndsWith s (Machine.withCount n s k) (if n.toNat ≤ 64 then st else .badNb) := by
  unfold Machine.withCount
  split
  · exact h
  · exact .rejected s _ _

/-- With an accepting sink every command ends, with the status of its checks. -/
theorem exec_endsWith_status {s : State} (hs : s.sinkAccepts) (i : Instr) : EndsWith s (exec i s) (i.status s) := by
  cases i with
  | pulse p lvl d => exact .withSlot (.finish hs rfl)
  | pulseAll lvl d => exact .finish hs rfl
  | reset p => exact .withSlot (.ok rfl)
  | resetAll => exact .ok rfl
  | encode p n v =>
    refine .withSlot (.withCount ?_)
    simp only [Instr.ownCheck]
    split
    · exact .rejected s _ _
    · exact .ok rfl
  | readEnc k =>
    show EndsWith s (execReadEnc k s) (if s.block.encLen ≤ k.toNat then .badIndex else .ok)
    unfold execReadEnc
    split
    · exact .rejected s _ _
    · exact .ok rfl
  | reverse n v => exact .withCount (.ok rfl)
  | loadLast p n key => exact .withSlot (.withCount (.ok rfl))
  | readLast p | readState p | readTemplate p => exact .withSlot (.ok rfl)

/-! ### The statement -/

/-- Settles O51: a legal word's step ends with the status of its command, which `status_assemble` reads from the word; any other word's with ILLEGAL. -/
theorem firstFailingCheckDecidesTheStatus : Obligations.FirstFailingCheckDecidesTheStatus := by
  intro s w rest hc hs hw usesSlot usesCount slotOk countOk overflows badIndex
  rw [step_cons hc hw]
  by_cases hl : LegalWord w
  · obtain ⟨o, ho⟩ := (legalWord_iff_selects w).mp hl
    have hsel := status_assemble ho { s with cmds := rest }
    rw [runWord_of_decode ((decode_eq_ok_iff w _).mpr ⟨o, ho, rfl⟩)]
    obtain ⟨b, es, f, hk, hb⟩ := exec_endsWith_status (s := { s with cmds := rest }) hs (o.assemble w)
    refine ⟨_, es, _, f, hk, rfl, absurd hl, fun _ h3 => ?_, fun _ h3 h4 => ?_, fun _ h3 h4 h5 => ?_,
      fun _ h3 h4 h5 => ?_, fun _ h3 h4 h5 h6 => ?_, hb⟩
    · exact hsel.trans (if_neg h3)
    · exact hsel.trans ((if_pos h3).trans (if_neg h4))
    · exact hsel.trans ((if_pos h3).trans ((if_pos h4).trans (if_pos h5)))
    · have hne : ¬ overflows := fun h => absurd (h.1.symm.trans h5.1) (by decide)
      exact hsel.trans ((if_pos h3).trans ((if_pos h4).trans ((if_neg hne).trans (if_pos h5))))
    · exact hsel.trans ((if_pos h3).trans ((if_pos h4).trans ((if_neg h5).trans (if_neg h6))))
  · rw [runWord_of_not_legal hl]
    exact ⟨_, [], .illegal, .empty, rfl, by simp, by simp [hl]⟩

end Sys2Proof.Machine
end

section
/-! PROOFS. The match predicate as a distance and as a window, the classes of one duration and of a symbol in those terms, and the statements of `spec/40_classifier.md` R110 to R117. -/

namespace Sys2Proof.Machine

/-! ### The match predicate -/

theorem matchDur_iff_distance (d w t : Nat) : matchDur d w t = true ↔ |(d : ℤ) - (w : ℤ)| < (t : ℤ) := by
  rw [matchDur_iff, abs_lt]
  omega

theorem matchDur_iff_window (d w t : Nat) :
    matchDur d w t = true ↔ max 0 ((w : ℤ) - t + 1) ≤ (d : ℤ) ∧ (d : ℤ) ≤ (w : ℤ) + t - 1 := by
  rw [matchDur_iff]
  omega

/-- Two nominal widths that one duration matches under one tolerance lie less than twice that tolerance apart. -/
theorem distance_lt_of_matchDur {d v w t : Nat} (hv : matchDur d v t = true) (hw : matchDur d w t = true) :
    |(v : ℤ) - (w : ℤ)| < 2 * (t : ℤ) := by
  rw [matchDur_iff_distance] at hv hw
  rw [abs_sub_comm] at hv
  calc |(v : ℤ) - (w : ℤ)| ≤ |(v : ℤ) - (d : ℤ)| + |(d : ℤ) - (w : ℤ)| := abs_sub_le _ _ _
    _ < 2 * (t : ℤ) := by omega

/-! ### The classes of one duration -/

theorem isHeader_iff_distance (t : Template) (d : Dur) :
    isHeader t d = true ↔
      |(d.toNat : ℤ) - (t.short.toNat : ℤ) * t.k.toNat| < (t.tol.toNat : ℤ) * t.k.toNat :=
  mod_cast matchDur_iff_distance d.toNat (t.short.toNat * t.k.toNat) (t.tol.toNat * t.k.toNat)

theorem isStart_iff_distance (t : Template) (d : Dur) :
    isStart t d = true ↔ |(d.toNat : ℤ) - (t.short.toNat : ℤ)| < (t.tol.toNat : ℤ) :=
  matchDur_iff_distance _ _ _

theorem isEOF_iff (t : Template) (d : Dur) : isEOF t d = true ↔ t.short.toNat * 4 ≤ d.toNat := by
  rw [isEOF, decide_eq_true_iff, eofMult_eq]

/-- The nominal header of template A is 700 * 36 = 25200, its tolerance 200 * 36 = 7200. -/
theorem isHeader_templateA (d : Dur) : isHeader Template.templateA d = matchDur d.toNat 25200 7200 := rfl

/-! ### The class of a symbol -/

/-- The halves `a`, `b` of a symbol match the nominal widths `v`, `w`, each on its own (R116). -/
def PairMatches (t : Template) (a b v w : Dur) : Prop :=
  matchDur a.toNat v.toNat t.tol.toNat = true ∧ matchDur b.toNat w.toNat t.tol.toNat = true

section
variable {t : Template} {a b : Dur}

theorem sym_of_zeroShape (h0 : PairMatches t a b t.short t.long) : sym t a b = some false :=
  if_pos (Bool.and_eq_true_iff.mpr h0)

theorem sym_of_oneShape (h0 : ¬ PairMatches t a b t.short t.long) (h1 : PairMatches t a b t.long t.short) :
    sym t a b = some true :=
  (if_neg (mt Bool.and_eq_true_iff.mp h0)).trans (if_pos (Bool.and_eq_true_iff.mpr h1))

theorem sym_of_noShape (h0 : ¬ PairMatches t a b t.short t.long) (h1 : ¬ PairMatches t a b t.long t.short) :
    sym t a b = none :=
  (if_neg (mt Bool.and_eq_true_iff.mp h0)).trans (if_neg (mt Bool.and_eq_true_iff.mp h1))

end

/-! ### The statements -/

/-- Settles O17: the strict distance and the integer window are the same pair of linear bounds. -/
theorem matchIsStrictDistance : Obligations.MatchIsStrictDistance :=
  fun d w t => ⟨matchDur_iff_distance d w t, matchDur_iff_window d w t⟩

/-- Settles O18: each class is a match or a threshold, and template A's windows are those of its numbers. -/
theorem classesOfOneDuration : Obligations.ClassesOfOneDuration := by
  refine ⟨fun t d => ⟨isHeader_iff_distance t d, isStart_iff_distance t d, isEOF_iff t d⟩,
    fun d => ⟨?_, isEOF_iff Template.templateA d⟩⟩
  rw [isHeader_templateA, matchDur_iff_window]
  omega

/-- Settles O19: the shapes are tested in order; where both match, the low half alone lies in both windows, which bounds their distance. -/
theorem symbolClass : Obligations.SymbolClass := by
  refine ⟨fun t a b => ?_, by decide⟩
  simp only [← matchDur_iff_distance]
  refine ⟨sym_of_zeroShape, sym_of_oneShape, sym_of_noShape, fun ⟨h0, hLong, _⟩ => ⟨?_, sym_of_zeroShape h0⟩⟩
  exact distance_lt_of_matchDur hLong h0.1

end Sys2Proof.Machine
end

section
/-! PROOFS. The rows of the next-state table of `Step`, one lemma a row, what a PULSE makes of a row, and the statements of `spec/41_decoder.md` R138, R140, R145 and R146 on frames. -/

namespace Sys2Proof.Machine

/-! ### The rows of the next-state table (R138) -/

section
variable {t : Template} {p : SlotNo} {d : Dur} {r : SlotRegs}

theorem stepSlot_idle_header (hst : r.st = .idle) (hd : isHeader t d = true) :
    stepSlot t p .low d r = (r.goto .hdr, none) := by
  simp [stepSlot, hst, stepIdle, hd]

theorem stepSlot_idle_noHeader (hst : r.st = .idle) (hd : isHeader t d = false) : stepSlot t p .low d r = (r, none) := by
  simp [stepSlot, hst, stepIdle, hd]

theorem stepSlot_idle_high (hst : r.st = .idle) : stepSlot t p .high d r = (r, none) := by
  simp [stepSlot, hst, stepIdle]

theorem stepSlot_hdr_low (hst : r.st = .hdr) : stepSlot t p .low d r = (r, none) := by
  simp [stepSlot, hst, stepHdr]

theorem stepSlot_hdr_start (hst : r.st = .hdr) (hd : isStart t d = true) :
    stepSlot t p .high d r = (r.clear.goto .awl, none) := by
  simp [stepSlot, hst, stepHdr, hd]

theorem stepSlot_hdr_noStart (hst : r.st = .hdr) (hd : isStart t d = false) :
    stepSlot t p .high d r = (r.goto .idle, none) := by
  simp [stepSlot, hst, stepHdr, hd]

theorem stepSlot_awl_high (hst : r.st = .awl) : stepSlot t p .high d r = (r.goto .idle, none) := by
  simp [stepSlot, hst, stepAwl]

theorem stepSlot_awl_eof_report (hst : r.st = .awl) (hd : isEOF t d = true) (hn : t.minb.toNat ≤ r.bufn.toNat) :
    stepSlot t p .low d r = ((r.setLast r.bufv r.bufn).goto .hdr, some (foundEvent p r)) := by
  simp [stepSlot, hst, stepAwl, hd, hn]

theorem stepSlot_awl_eof_tooShort (hst : r.st = .awl) (hd : isEOF t d = true) (hn : r.bufn.toNat < t.minb.toNat) :
    stepSlot t p .low d r = (r.goto .hdr, none) := by
  simp [stepSlot, hst, stepAwl, hd, Nat.not_le.mpr hn]

theorem stepSlot_awl_lowHalf (hst : r.st = .awl) (hd : isEOF t d = false) :
    stepSlot t p .low d r = ({ r with pend := d }.goto .aw2, none) := by
  simp [stepSlot, hst, stepAwl, hd]

theorem stepSlot_aw2_low (hst : r.st = .aw2) : stepSlot t p .low d r = (r.goto .idle, none) := by
  simp [stepSlot, hst, stepAw2]

theorem stepSlot_aw2_noSymbol (hst : r.st = .aw2) (hb : sym t r.pend d = none) :
    stepSlot t p .high d r = (r.goto .idle, none) := by
  simp [stepSlot, hst, stepAw2, hb]

theorem stepSlot_aw2_overflow {b : Bool} (hst : r.st = .aw2) (hb : sym t r.pend d = some b) (hn : r.bufn = 64) :
    stepSlot t p .high d r = (r.goto .idle, some (overflowEvent p r)) := by
  simp [stepSlot, hst, stepAw2, hb, append_full r b hn]

theorem stepSlot_aw2_symbol {b : Bool} (hst : r.st = .aw2) (hb : sym t r.pend d = some b) (hn : r.bufn ≠ 64) :
    stepSlot t p .high d r = ((r.shiftIn b).goto .awl, none) := by
  simp [stepSlot, hst, stepAw2, hb, append_room r b hn]

/-- Both rows of a low pulse in IDLE: it is tested as a header and nothing else. -/
theorem stepSlot_idle_low (hst : r.st = .idle) :
    stepSlot t p .low d r = (r.goto (if isHeader t d then .hdr else .idle), none) := by
  cases hd : isHeader t d with
  | true => exact stepSlot_idle_header hst hd
  | false => rw [stepSlot_idle_noHeader hst hd, if_neg Bool.false_ne_true, SlotRegs.goto_self hst]

end

/-- The bit shifted in, in the words of R171. -/
theorem SlotRegs.shiftIn_eq (r : SlotRegs) (b : Bool) :
    r.shiftIn b = { r with bufv := (r.bufv <<< 1) ||| (if b then 1 else 0), bufn := r.bufn + 1 } := by
  cases b <;> rfl

/-! ### One PULSE to a slot whose registers are known -/

/-- Slot `p` exists, with template `t` and registers `r`, and the sink accepts every event. -/
structure SlotReady (s : State) (p : SlotNo) (t : Template) (r : SlotRegs) : Prop where
  slots_length : s.block.slots.length = s.cfg.nDec
  slot_lt : p.toNat < s.cfg.nDec
  sink : s.sinkAccepts
  tpl : s.tpl p.toNat = t
  reg : s.reg p.toNat = r

/-- A PULSE answers, leaves the slot with the registers of its `Step`, ready for the next PULSE, and raises the event of that `Step`. -/
theorem SlotReady.pulse {s : State} {p : SlotNo} {t : Template} {r r' : SlotRegs} {lvl : Level} {d : Dur}
    {e : Option Event} (h : SlotReady s p t r) (hstep : stepSlot t p lvl d r = (r', e)) :
    ∃ s', exec (.pulse p lvl d) s = .next s' ∧ SlotReady s' p t r' ∧
      eventsOf s'.trace = eventsOf s.trace ++ e.toList := by
  obtain ⟨hlen, hp, hs, rfl, rfl⟩ := h
  have hexec : exec (.pulse p lvl d) s = finish e.toList (s.setReg p.toNat r') := by
    simp only [exec, execPulse, withSlot_lt hp, hstep]
  refine ⟨_, hexec.trans (finish_accepts (s := s.setReg p.toNat r') hs), ?_, by simp⟩
  exact {
    slots_length := by simpa using hlen
    slot_lt := hp
    sink := fun x hx => hs x (List.mem_of_mem_drop hx)
    tpl := rfl
    reg := State.reg_setReg_self s p.toNat r' (hlen ▸ hp) }

/-! ### The statements -/

/-- Settles O20: the fourteen rows, each by its lemma; the 7-bit count is 64 as a number where it is 64 as a register. -/
theorem nextStateTable : Obligations.NextStateTable := by
  intro t p d r
  refine ⟨fun hst => ⟨stepSlot_idle_header hst, stepSlot_idle_noHeader hst, stepSlot_idle_high hst⟩,
    fun hst => ⟨stepSlot_hdr_low hst, stepSlot_hdr_start hst, stepSlot_hdr_noStart hst⟩,
    fun hst => ⟨stepSlot_awl_high hst, stepSlot_awl_eof_report hst, stepSlot_awl_eof_tooShort hst,
      stepSlot_awl_lowHalf hst⟩,
    fun hst => ⟨stepSlot_aw2_low hst, stepSlot_aw2_noSymbol hst, fun b hb hn => ?_, fun b hb hn => ?_⟩⟩
  · exact stepSlot_aw2_overflow hst hb (BitVec.eq_of_toNat_eq hn)
  · have hn : r.bufn ≠ 64 := fun h => by simp [h] at hn
    rw [stepSlot_aw2_symbol hst hb hn, SlotRegs.shiftIn_eq]
    rfl

/-- Settles O24: the three pulses follow the header, start and report rows, and the start bit has left the code buffer empty. -/
theorem emptyFrameIsReportedWithMinbZero : Obligations.EmptyFrameIsReportedWithMinbZero := by
  intro s p d1 d2 d3 hlen hp hs hminb hst hd1 hd2 hd3
  have ready : SlotReady s p (s.tpl p.toNat) (s.reg p.toNat) := ⟨hlen, hp, hs, rfl, rfl⟩
  obtain ⟨s1, h1, ready1, he1⟩ := ready.pulse (stepSlot_idle_header hst hd1)
  obtain ⟨s2, h2, ready2, he2⟩ := ready1.pulse (stepSlot_hdr_start rfl hd2)
  obtain ⟨s3, h3, ready3, he3⟩ := ready2.pulse (stepSlot_awl_eof_report rfl hd3 (by simp [hminb]))
  refine ⟨s3, by simp only [runCommands, h1, h2, h3], ?_, by simp [ready3.reg], by simp [ready3.reg], by simp [ready3.reg]⟩
  simp [he3, he2, he1, foundEvent]

/-- Settles O25: the overflow row leaves the slot in IDLE, where a low pulse writes ST at most. -/
theorem overlongFrameIsNeverReported : Obligations.OverlongFrameIsNeverReported := by
  intro s p d1 d2 b hlen hp hs hst hn hb
  have ready : SlotReady s p (s.tpl p.toNat) (s.reg p.toNat) := ⟨hlen, hp, hs, rfl, rfl⟩
  obtain ⟨s1, h1, ready1, he1⟩ := ready.pulse (stepSlot_aw2_overflow hst hb hn)
  obtain ⟨s2, h2, ready2, he2⟩ := ready1.pulse (d := d2) (stepSlot_idle_low rfl)
  refine ⟨s1, s2, h1, h2, ?_, he1, by simpa using he2, ?_⟩
  · rw [ready1.reg, SlotRegs.goto_st]
  · rw [ready2.reg]
    exact ⟨rfl, rfl, rfl, rfl⟩

/-- Settles O26: the nominal header reaches the end-of-frame threshold, so both rows of an end-of-frame lead to HDR, where a start bit begins the new frame. -/
theorem repeatedHeaderEndsTheFrame : Obligations.RepeatedHeaderEndsTheFrame := by
  refine ⟨fun t p r d d2 hst hd => ⟨Nat.mul_le_mul_left _, fun hle => ?_⟩, by decide⟩
  have heof : isEOF t d = true := (isEOF_iff t d).mpr (hd ▸ hle)
  rcases Nat.lt_or_ge r.bufn.toNat t.minb.toNat with hn | hn
  · rw [stepSlot_awl_eof_tooShort hst heof hn]
    exact ⟨rfl, fun h => absurd hn (Nat.not_lt.mpr h), fun _ => rfl, stepSlot_hdr_start rfl⟩
  · rw [stepSlot_awl_eof_report hst heof hn]
    exact ⟨rfl, fun _ => rfl, fun h => absurd hn (Nat.not_le.mpr h), stepSlot_hdr_start rfl⟩

end Sys2Proof.Machine
end

section
/-! PROOFS. The code buffer as a number: what one Append and a run of Appends make of it, what `reverse_bits` makes of a code, and the statements of `spec/42_accumulator.md` R170 to R176. -/

namespace Sys2Proof.Machine

/-! ### Bits in order, the first one the most significant -/

/-- The number whose `n` binary digits are `f 0 .. f (n-1)`, most significant first: the sum of R172 and of R174. -/
def msbFirst (f : Nat → Bool) (n : Nat) : Nat := ((List.range n).map fun i => (f i).toNat * 2 ^ (n - 1 - i)).sum

theorem msbFirst_congr {f g : Nat → Bool} {n : Nat} (h : ∀ i, i < n → f i = g i) : msbFirst f n = msbFirst g n := by
  refine congrArg List.sum (List.map_congr_left fun i hi => ?_)
  rw [h i (List.mem_range.mp hi)]

/-- One more digit doubles the digits before it. -/
theorem msbFirst_succ (f : Nat → Bool) (n : Nat) : msbFirst f (n + 1) = 2 * msbFirst f n + (f n).toNat := by
  have hdouble : ∀ i ∈ List.range n, (f i).toNat * 2 ^ (n - i) = 2 * ((f i).toNat * 2 ^ (n - 1 - i)) := by
    intro i hi
    have hi : i < n := List.mem_range.mp hi
    rw [show n - i = n - 1 - i + 1 by omega, Nat.pow_succ]
    ac_rfl
  simp [msbFirst, List.sum_range_succ, List.map_congr_left hdouble, List.sum_map_mul_left]

/-- The digits counted from the other end are the bits of the number. -/
theorem msbFirst_eq_ofBits (f : Nat → Bool) (n : Nat) : msbFirst f n = Nat.ofBits fun i : Fin n => f (n - 1 - i) := by
  induction n with
  | zero => rfl
  | succ n ih =>
    rw [msbFirst_succ, ih, Nat.ofBits_succ]
    simp [Function.comp_def, Nat.sub_sub, Nat.add_comm]

theorem msbFirst_lt (f : Nat → Bool) (n : Nat) : msbFirst f n < 2 ^ n := by
  rw [msbFirst_eq_ofBits]; exact Nat.ofBits_lt_two_pow _

theorem testBit_msbFirst (f : Nat → Bool) (n i : Nat) :
    (msbFirst f n).testBit i = (decide (i < n) && f (n - 1 - i)) := by
  rw [msbFirst_eq_ofBits, Nat.testBit_ofBits]
  split <;> simp [*]

/-! ### One Append (R171) -/

theorem SlotRegs.append_eq_none_iff (r : SlotRegs) (b : Bool) : r.append b = none ↔ r.bufn = 64 := by
  simp [SlotRegs.append]

/-- Shifting a bit in is the library's shift of a word that takes a new bit 0. -/
theorem SlotRegs.shiftIn_bufv_eq_shiftConcat (r : SlotRegs) (b : Bool) : (r.shiftIn b).bufv = r.bufv.shiftConcat b := by
  rw [SlotRegs.shiftIn_bufv]
  ext i hi
  cases i <;> simp [BitVec.getElem_shiftConcat]

theorem SlotRegs.shiftIn_bufv_toNat (r : SlotRegs) (b : Bool) :
    (r.shiftIn b).bufv.toNat = (2 * r.bufv.toNat + b.toNat) % 2 ^ 64 := by
  rw [SlotRegs.shiftIn_bufv_eq_shiftConcat, BitVec.toNat_shiftConcat, Nat.shiftLeft_eq, Nat.mul_comm, Nat.pow_one]

/-- With fewer than 64 bits in the buffer the shift loses no bit (R171). -/
theorem SlotRegs.shiftIn_bufv_toNat_of_lt {r : SlotRegs} (b : Bool) {n : Nat} (hn : n < 64) (h : r.bufv.toNat < 2 ^ n) :
    (r.shiftIn b).bufv.toNat = 2 * r.bufv.toNat + b.toNat := by
  rw [SlotRegs.shiftIn_bufv_eq_shiftConcat, BitVec.toNat_shiftConcat_eq_of_lt hn h, Nat.mul_comm]

theorem SlotRegs.bufn_eq_64_iff {r : SlotRegs} : r.bufn = 64 ↔ r.bufn.toNat = 64 :=
  ⟨fun h => by rw [h]; rfl, fun h => BitVec.eq_of_toNat_eq h⟩

theorem SlotRegs.append_of_lt {r : SlotRegs} (b : Bool) (h : r.bufn.toNat < 64) : r.append b = some (r.shiftIn b) :=
  append_room r b fun he => h.ne (SlotRegs.bufn_eq_64_iff.mp he)

/-! ### A run of Appends -/

theorem SlotRegs.appendAll_append (r : SlotRegs) (as bs : List Bool) :
    r.appendAll (as ++ bs) = (r.appendAll as).bind fun r' => r'.appendAll bs := by
  induction as generalizing r with
  | nil => rfl
  | cons a as ih =>
    simp only [List.cons_append, SlotRegs.appendAll]
    cases r.append a with
    | none => rfl
    | some r' => exact ih r'

theorem SlotRegs.appendAll_singleton (r : SlotRegs) (b : Bool) : r.appendAll [b] = r.append b := by
  simp only [SlotRegs.appendAll]
  cases r.append b <;> rfl

/-- At most 64 bits appended to the cleared buffer: each is a digit below the ones before it (R172). -/
theorem SlotRegs.appendAll_clear (r : SlotRegs) (bs : List Bool) (h : bs.length ≤ 64) :
    ∃ r', r.clear.appendAll bs = some r' ∧ r'.bufn.toNat = bs.length ∧
      r'.bufv.toNat = msbFirst (fun j => bs.getD j false) bs.length := by
  induction bs using List.reverseRecOn with
  | nil => exact ⟨r.clear, rfl, rfl, rfl⟩
  | append_singleton bs b ih =>
    rw [List.length_append, List.length_singleton] at h ⊢
    obtain ⟨r', happ, hn, hv⟩ := ih (by omega)
    have hroom : r'.bufn.toNat < 64 := by omega
    have hdigits : msbFirst (fun j => (bs ++ [b]).getD j false) bs.length = msbFirst (fun j => bs.getD j false) bs.length :=
      msbFirst_congr fun j hj => List.getD_append _ _ _ _ hj
    refine ⟨r'.shiftIn b, ?_, by rw [SlotRegs.shiftIn_bufn_toNat b hroom, hn], ?_⟩
    · rw [SlotRegs.appendAll_append, happ, Option.bind_some, SlotRegs.appendAll_singleton, SlotRegs.append_of_lt b hroom]
    · rw [SlotRegs.shiftIn_bufv_toNat_of_lt b (hn ▸ hroom) (hv ▸ msbFirst_lt _ _), hv, msbFirst_succ, hdigits]
      simp

/-- After 64 bits the next one fails, and no later bit mends it (R176). -/
theorem SlotRegs.appendAll_clear_overlong (r : SlotRegs) (bs : List Bool) (h : 64 < bs.length) :
    r.clear.appendAll bs = none := by
  have htake : (bs.take 64).length = 64 := List.length_take_of_le h.le
  obtain ⟨r', happ, hn, -⟩ := r.appendAll_clear (bs.take 64) htake.le
  have hfull : r'.bufn = 64 := SlotRegs.bufn_eq_64_iff.mpr (hn.trans htake)
  rw [← List.take_append_drop 64 bs, SlotRegs.appendAll_append, happ, Option.bind_some, List.drop_eq_getElem_cons h,
    SlotRegs.appendAll, append_full r' _ hfull]

/-! ### The reversal of a code (R174) -/

theorem reverseBits_toNat (v : Code) {n : Nat} (h : n ≤ 64) : (reverseBits v n).toNat = msbFirst v.getLsbD n :=
  Nat.mod_eq_of_lt ((msbFirst_lt _ n).trans_le (Nat.pow_le_pow_right (by decide) h))

theorem getLsbD_reverseBits (v : Code) {n : Nat} (h : n ≤ 64) (i : Nat) :
    (reverseBits v n).getLsbD i = (decide (i < n) && v.getLsbD (n - 1 - i)) := by
  rw [BitVec.getLsbD, reverseBits_toNat v h, testBit_msbFirst]

/-- Position `n-1-i`, counted back from `n-1`, is `i` again. -/
theorem getLsbD_reverseBits_mirror (v : Code) {n i : Nat} (h : n ≤ 64) (hi : i < n) :
    (reverseBits v n).getLsbD (n - 1 - i) = v.getLsbD i := by
  rw [getLsbD_reverseBits v h, decide_eq_true (show n - 1 - i < n by omega), Bool.true_and, show n - 1 - (n - 1 - i) = i by omega]

theorem reverseBits_congr {u v : Code} {n : Nat} (h : ∀ i, i < n → u.getLsbD i = v.getLsbD i) :
    reverseBits u n = reverseBits v n :=
  congrArg (BitVec.ofNat 64) (msbFirst_congr h)

/-- Reversing twice puts the low `n` bits back and loses the bits above them (R175). -/
theorem reverseBits_reverseBits_toNat (v : Code) {n : Nat} (h : n ≤ 64) :
    (reverseBits (reverseBits v n) n).toNat = v.toNat % 2 ^ n := by
  refine Nat.eq_of_testBit_eq fun i => ?_
  rw [Nat.testBit_mod_two_pow, BitVec.testBit_toNat, BitVec.testBit_toNat, getLsbD_reverseBits _ h]
  rcases Nat.lt_or_ge i n with hi | hi
  · rw [getLsbD_reverseBits_mirror v h hi]
  · rw [decide_eq_false (Nat.not_lt.mpr hi), Bool.false_and, Bool.false_and]

/-! ### The statements -/

/-- Settles O32: the buffer is full at exactly 64 bits, and below that Append is the shift. -/
theorem appendShiftsInFromTheRight : Obligations.AppendShiftsInFromTheRight := by
  refine fun r b => ⟨rfl, append_full r b, fun hn => ?_⟩
  have hcount := SlotRegs.shiftIn_bufn_toNat b hn
  refine ⟨r.shiftIn b, SlotRegs.append_of_lt b hn, rfl, r.shiftIn_bufv_toNat b, hcount, fun hv => ?_⟩
  exact ⟨SlotRegs.shiftIn_bufv_toNat_of_lt b hn hv, hcount ▸ SlotRegs.shiftIn_bufv_lt b hv⟩

/-- Settles O33, by induction on the bits, the last one first. -/
theorem firstAppendedBitIsMostSignificant : Obligations.FirstAppendedBitIsMostSignificant :=
  SlotRegs.appendAll_clear

/-- Settles O34: the bit count tells whether one more bit fits. -/
theorem sixtyFifthAppendFails : Obligations.SixtyFifthAppendFails := by
  refine fun r bs b => ⟨fun h => ?_, r.appendAll_clear_overlong bs⟩
  obtain ⟨r', happ, hn, -⟩ := r.appendAll_clear bs h
  exact ⟨r', happ, by rw [SlotRegs.append_eq_none_iff, SlotRegs.bufn_eq_64_iff, hn]⟩

/-- Settles O35, from the bits of a number given most significant first. -/
theorem reverseBitsMovesEachBit : Obligations.ReverseBitsMovesEachBit := by
  refine fun v n h => ⟨reverseBits_toNat v h, fun i => getLsbD_reverseBits_mirror v h, ?_, fun u => reverseBits_congr, rfl⟩
  rw [reverseBits_toNat v h]
  exact msbFirst_lt _ n

/-- Settles O36: a code below `2^n` is its own remainder. -/
theorem reversingTwiceKeepsTheLowBits : Obligations.ReversingTwiceKeepsTheLowBits := by
  refine fun v n h => ⟨reverseBits_reverseBits_toNat v h, fun hv => BitVec.eq_of_toNat_eq ?_⟩
  rw [reverseBits_reverseBits_toNat v h, Nat.mod_eq_of_lt hv]

end Sys2Proof.Machine
end

section
/-! PROOFS. What ENCODE answers, what its pulses are, and what a slot of the same template makes of them: the statements of `spec/43_encoder.md` R193, R196, R197 and R199. -/

namespace Sys2Proof.Machine

/-! ### ENCODE, one lemma for each answer (R191, R193) -/

section
variable {s : State} {p : SlotNo} {n : Count} (v : Code)

theorem exec_encode_of_le (hp : p.toNat < s.cfg.nDec) (hn : n.toNat ≤ 64) (hcap : 2 + 2 * n.toNat ≤ s.cfg.encCap) :
    exec (.encode p n v) s =
      respond .ok (.len (2 + 2 * n.toNat)) (s.writeEnc (encodePulses (s.tpl p.toNat) v n.toNat)) := by
  rw [exec, execEncode, withSlot_lt hp, withCount_le hn, if_neg (Nat.not_lt.mpr hcap)]

theorem exec_encode_badSlot (hp : s.cfg.nDec ≤ p.toNat) : exec (.encode p n v) s = reject .badSlot s :=
  withSlot_ge hp

theorem exec_encode_badNb (hp : p.toNat < s.cfg.nDec) (hn : 64 < n.toNat) :
    exec (.encode p n v) s = reject .badNb s :=
  (withSlot_lt hp).trans (withCount_gt hn)

theorem exec_encode_overflow (hp : p.toNat < s.cfg.nDec) (hn : n.toNat ≤ 64) (hcap : s.cfg.encCap < 2 + 2 * n.toNat) :
    exec (.encode p n v) s = reject .encOverflow s := by
  rw [exec, execEncode, withSlot_lt hp, withCount_le hn, if_pos hcap]

end

/-! ### The bits of a code in sending order -/

/-- The bits `v[n-1]` down to `v[0]`, in the order in which the encoder sends them (R191). -/
def sentBits (v : Code) (n : Nat) : List Bool := (List.range n).map fun j => v.getLsbD (n - 1 - j)

@[simp] theorem sentBits_length (v : Code) (n : Nat) : (sentBits v n).length = n := by simp [sentBits]

theorem sentBits_getD (v : Code) {n j : Nat} (hj : j < n) : (sentBits v n).getD j false = v.getLsbD (n - 1 - j) := by
  simp [sentBits, hj]

theorem encodePulses_eq_sentBits (t : Template) (v : Code) (n : Nat) :
    encodePulses t v n = ⟨.low, headerDur t⟩ :: ⟨.high, t.short⟩ :: (sentBits v n).flatMap (symbolPulses t) := by
  simp [encodePulses, sentBits, List.flatMap_map]

/-- Read back most significant first, the sent bits are the low `n` bits of the code. -/
theorem msbFirst_sentBits (v : Code) (n : Nat) :
    msbFirst (fun j => (sentBits v n).getD j false) n = v.toNat % 2 ^ n := by
  refine Nat.eq_of_testBit_eq fun i => ?_
  rw [testBit_msbFirst, Nat.testBit_mod_two_pow, BitVec.testBit_toNat]
  by_cases hi : i < n
  · rw [sentBits_getD v (by omega), show n - 1 - (n - 1 - i) = i by omega]
  · simp [hi]

theorem sentBits_congr {u v : Code} {n : Nat} (h : ∀ i, i < n → u.getLsbD i = v.getLsbD i) :
    sentBits u n = sentBits v n :=
  List.map_congr_left fun j hj => h _ (by have := List.mem_range.mp hj; omega)

/-- `v mod 2^n` has the low `n` bits of `v`. -/
theorem getLsbD_ofNat_mod_two_pow (v : Code) {n i : Nat} (hn : n ≤ 64) (hi : i < n) :
    (BitVec.ofNat 64 (v.toNat % 2 ^ n)).getLsbD i = v.getLsbD i := by
  rw [BitVec.getLsbD_ofNat, Nat.testBit_mod_two_pow, BitVec.testBit_toNat]
  simp [hi, show i < 64 by omega]

/-! ### Pulses that raise no event -/

/-- `QuietRun t p r ps r'`: a slot of template `t` takes the pulses `ps` one after another from the registers `r` to `r'`, and none of them raises an event. -/
inductive QuietRun (t : Template) (p : SlotNo) : SlotRegs → List Pulse → SlotRegs → Prop
  | nil (r : SlotRegs) : QuietRun t p r [] r
  | cons {r r₁ r₂ : SlotRegs} {x : Pulse} {xs : List Pulse} (hx : stepSlot t p x.lvl x.dur r = (r₁, none))
      (hxs : QuietRun t p r₁ xs r₂) : QuietRun t p r (x :: xs) r₂

theorem QuietRun.append {t : Template} {p : SlotNo} {r r₁ r₂ : SlotRegs} {xs ys : List Pulse}
    (hxs : QuietRun t p r xs r₁) (hys : QuietRun t p r₁ ys r₂) : QuietRun t p r (xs ++ ys) r₂ := by
  induction hxs with
  | nil => exact hys
  | cons hx _ ih => exact .cons hx (ih hys)

/-- PULSE commands with the pulses of a quiet run all answer, leave the slot ready with the last registers, and raise no event. -/
theorem SlotReady.quietRun {s : State} {p : SlotNo} {t : Template} {r r' : SlotRegs} {ps : List Pulse}
    (ready : SlotReady s p t r) (h : QuietRun t p r ps r') :
    ∃ s', runCommands (pulseCommands p ps) s = .next s' ∧ SlotReady s' p t r' ∧ eventsOf s'.trace = eventsOf s.trace := by
  induction h generalizing s with
  | nil => exact ⟨s, rfl, ready, rfl⟩
  | cons hx _ ih =>
    obtain ⟨s1, hexec, ready1, he1⟩ := ready.pulse hx
    obtain ⟨s2, hrun, ready2, he2⟩ := ih ready1
    refine ⟨s2, ?_, ready2, by simpa [he1] using he2⟩
    simpa [pulseCommands, runCommands, hexec] using hrun

/-! ### A template that reads its own symbols (R196) -/

/-- Conditions 4 to 6 of R196: some duration matches, a nominal pulse is no end-of-frame, and the nominal widths do not match each other. -/
structure ReadsOwnSymbols (t : Template) : Prop where
  tol_pos : 1 ≤ t.tol.toNat
  long_lt : t.long.toNat < t.short.toNat * 4
  apart : (t.tol.toNat : ℤ) ≤ |(t.long.toNat : ℤ) - (t.short.toNat : ℤ)|

section
variable {t : Template} (h : ReadsOwnSymbols t) (p : SlotNo)
include h

/-- The two pulses of a bit are a low half, too short for an end-of-frame, and a high half that makes it that bit's symbol. -/
theorem ReadsOwnSymbols.symbol (b : Bool) :
    ∃ lo hi, symbolPulses t b = [⟨.low, lo⟩, ⟨.high, hi⟩] ∧ isEOF t lo = false ∧ sym t lo hi = some b := by
  have hlong := h.long_lt
  cases b with
  | false =>
    refine ⟨t.short, t.long, rfl, ?_, sym_nominal_zero t h.tol_pos⟩
    rw [← Bool.not_eq_true, isEOF_iff]; omega
  | true =>
    refine ⟨t.long, t.short, rfl, ?_, sym_of_oneShape ?_ ⟨matchDur_self _ _ h.tol_pos, matchDur_self _ _ h.tol_pos⟩⟩
    · rw [← Bool.not_eq_true, isEOF_iff]; omega
    · rintro ⟨hmatch, -⟩
      exact absurd h.apart (not_le.mpr ((matchDur_iff_distance _ _ _).mp hmatch))

/-- The two pulses of a bit shift it in, from AWL back to AWL, and leave the low half in PEND. -/
theorem QuietRun.symbol {r r' : SlotRegs} {b : Bool} (hb : r.append b = some r') (pend : Dur) :
    ∃ pend', QuietRun t p ({ r with pend := pend }.goto .awl) (symbolPulses t b)
      ({ r' with pend := pend' }.goto .awl) := by
  obtain ⟨lo, hi, hpulses, hlo, hsym⟩ := h.symbol b
  have hroom : r.bufn ≠ 64 := fun hfull => by simp [append_full r b hfull] at hb
  obtain rfl : r.shiftIn b = r' := Option.some.inj ((append_room r b hroom).symm.trans hb)
  rw [hpulses]
  exact ⟨lo, .cons (stepSlot_awl_lowHalf rfl hlo) (.cons (stepSlot_aw2_symbol rfl hsym hroom) (.nil _))⟩

/-- The pulses of some bits append them one after another. -/
theorem QuietRun.symbols {r r' : SlotRegs} {bs : List Bool} (hbs : r.appendAll bs = some r') (pend : Dur) :
    ∃ pend', QuietRun t p ({ r with pend := pend }.goto .awl) (bs.flatMap (symbolPulses t))
      ({ r' with pend := pend' }.goto .awl) := by
  induction bs generalizing r pend with
  | nil =>
    cases hbs
    exact ⟨pend, .nil _⟩
  | cons b bs ih =>
    rw [SlotRegs.appendAll] at hbs
    split at hbs
    next r₁ hb =>
      obtain ⟨pend₁, hfirst⟩ := QuietRun.symbol h p hb pend
      obtain ⟨pend₂, hrest⟩ := ih hbs pend₁
      exact ⟨pend₂, hfirst.append hrest⟩
    next => cases hbs

end

/-! ### The encoded pulses read back -/

theorem headerDur_toNat {t : Template} (h : t.wf = true) : (headerDur t).toNat = t.short.toNat * t.k.toNat := by
  obtain ⟨-, -, hfits⟩ := (Template.wf_iff t).mp h
  exact Nat.mod_eq_of_lt (by omega)

theorem isHeader_headerDur {t : Template} (h : t.wf = true) (htol : 1 ≤ t.tol.toNat) : isHeader t (headerDur t) = true := by
  obtain ⟨hk, -, -⟩ := (Template.wf_iff t).mp h
  rw [isHeader, headerDur_toNat h]
  exact matchDur_self _ _ (Nat.mul_pos htol hk)

/-- The encoder's header is a header in IDLE, and in HDR a low pulse changes nothing. -/
theorem stepSlot_headerDur {t : Template} {r : SlotRegs} (p : SlotNo) (h : t.wf = true) (htol : 1 ≤ t.tol.toNat)
    (hst : r.st = .idle ∨ r.st = .hdr) : stepSlot t p .low (headerDur t) r = (r.goto .hdr, none) := by
  rcases hst with hst | hst
  · exact stepSlot_idle_header hst (isHeader_headerDur h htol)
  · rw [stepSlot_hdr_low hst, SlotRegs.goto_self hst]

/-- The encoded pulses take a slot from IDLE or HDR to AWL with the code in its code buffer. -/
theorem QuietRun.encoded {t : Template} {r : SlotRegs} (p : SlotNo) (hwf : t.wf = true) (h : ReadsOwnSymbols t)
    (hst : r.st = .idle ∨ r.st = .hdr) (v : Code) {n : Nat} (hn : n ≤ 64) :
    ∃ r', QuietRun t p r (encodePulses t v n) r' ∧ r'.st = .awl ∧ r'.bufn.toNat = n ∧
      r'.bufv.toNat = v.toNat % 2 ^ n := by
  obtain ⟨q, happ, hcount, hvalue⟩ := r.appendAll_clear (sentBits v n) (by simpa using hn)
  rw [sentBits_length] at hcount hvalue
  rw [msbFirst_sentBits] at hvalue
  obtain ⟨pend, hbits⟩ := QuietRun.symbols h p happ r.pend
  refine ⟨{ q with pend := pend }.goto .awl, ?_, rfl, hcount, hvalue⟩
  have hstart : isStart t t.short = true := matchDur_self _ _ h.tol_pos
  rw [encodePulses_eq_sentBits]
  exact .cons (stepSlot_headerDur p hwf h.tol_pos hst) (.cons (stepSlot_hdr_start rfl hstart) hbits)

theorem State.tpl_wf {s : State} {q : Nat} (hc : s.cfg.wf = true) (hq : q < s.cfg.nDec) : (s.tpl q).wf = true :=
  ((Config.wf_iff s.cfg).mp hc).2.2.2 _ (List.mem_of_getElem? (State.getElem?_templates hq))

/-! ### The statements -/

/-- Settles O42: the encoded pulses leave the slot in AWL with the code in its buffer, and the end-of-frame reports it. -/
theorem encodedCodeIsDecodedAgain : Obligations.EncodedCodeIsDecodedAgain := by
  intro s p n v dEnd hc hlen hp hs t hn hminb hcap htol hlong hapart hst hend
  have hwf : t.wf = true := State.tpl_wf hc hp
  obtain ⟨r, hquiet, hawl, hcount, hvalue⟩ := QuietRun.encoded p hwf ⟨htol, hlong, hapart⟩ hst v hn
  have hexec := exec_encode_of_le v hp hn hcap
  set s1 := (s.writeEnc (encodePulses t v n.toNat)).emit (.response ⟨.ok, .len (2 + 2 * n.toNat)⟩)
  have hEncLen : s1.block.encLen = 2 + 2 * n.toNat := encodePulses_length t v n.toNat
  have hwritten : s1.block.encBuf.take s1.block.encLen = encodePulses t v n.toNat := List.take_left
  have ready1 : SlotReady s1 p t (s.reg p.toNat) := ⟨hlen, hp, hs, rfl, rfl⟩
  obtain ⟨s2, hrun, ready2, he2⟩ := ready1.quietRun hquiet
  obtain ⟨s3, hpulse, ready3, he3⟩ :=
    ready2.pulse (stepSlot_awl_eof_report hawl ((isEOF_iff t dEnd).mpr hend) (hcount ▸ hminb))
  have hbufn : r.bufn = n := BitVec.eq_of_toNat_eq hcount
  have hbufv : r.bufv = BitVec.ofNat 64 (v.toNat % 2 ^ n.toNat) := by rw [← hvalue, BitVec.ofNat_toNat, BitVec.setWidth_eq]
  refine ⟨s1, s2, s3, hexec, hEncLen, by rw [hwritten]; exact hrun, he2, hpulse, ?_, ?_⟩
  · rw [he3, he2, ← hbufv, ← hbufn]; rfl
  · rw [ready3.reg]
    exact ⟨hvalue, hbufn, rfl, rfl⟩

/-- Settles O38: a word that is not legal is answered ILLEGAL whatever its opcode, and each operand check that fails is a rejection. -/
theorem rejectedEncodeWritesNothing : Obligations.RejectedEncodeWritesNothing := by
  obtain ⟨hillegal, -⟩ := illegalWordsAreRejectedWithoutEffect
  exact ⟨fun s w rest hc hw _ hl => hillegal s w rest hc hw hl,
    fun s p n v => ⟨exec_encode_badSlot v, exec_encode_badNb v, exec_encode_overflow v⟩⟩

/-- Settles O39, from the alternation that the invariant on the encoder buffer rests on. -/
theorem encodedPulsesAlternate : Obligations.EncodedPulsesAlternate := by
  refine fun t v n => ⟨encodePulses_length t v n, fun j e => ⟨fun he => ?_, fun he => ?_⟩⟩ <;>
  · obtain ⟨hi, rfl⟩ := List.getElem?_eq_some_iff.mp he
    rw [encodePulses_alternates t v n _ hi]
    simp [Nat.add_mod]

/-- Settles O40: ENCODE reads its value only through the bits it sends. -/
theorem encodeReadsOnlyTheLowBits : Obligations.EncodeReadsOnlyTheLowBits := by
  intro s p n v hn
  have hsent : sentBits (BitVec.ofNat 64 (v.toNat % 2 ^ n.toNat)) n.toNat = sentBits v n.toNat :=
    sentBits_congr fun i => getLsbD_ofNat_mod_two_pow v hn
  simp only [exec, execEncode, encodePulses_eq_sentBits, hsent]

end Sys2Proof.Machine
end

section
/-! PROOFS. The host's text codec: the characters of digits and what they stand for, what each reader accepts, what each writer writes, and the statements of `spec/44_last_found_and_text.md` R241, R242, R245, R248, R250 to R252 and R254. -/

namespace Sys2Proof.Machine

/-! ### The characters of digits (R241, R251, R252) -/

/-- A hexadecimal digit of either case (R252). -/
def IsHexDigit (c : Char) : Prop := ('0' ≤ c ∧ c ≤ '9') ∨ ('A' ≤ c ∧ c ≤ 'F') ∨ ('a' ≤ c ∧ c ≤ 'f')

/-- What a hexadecimal digit of either case stands for (R252). -/
def hexValue (c : Char) : Nat := if c ≤ '9' then c.toNat - 48 else if c ≤ 'F' then c.toNat - 55 else c.toNat - 87

theorem isHexDigit_iff_toNat (c : Char) :
    IsHexDigit c ↔ (48 ≤ c.toNat ∧ c.toNat ≤ 57) ∨ (65 ≤ c.toNat ∧ c.toNat ≤ 70) ∨ (97 ≤ c.toNat ∧ c.toNat ≤ 102) := Iff.rfl

theorem hexValue_eq_toNat (c : Char) :
    hexValue c = if c.toNat ≤ 57 then c.toNat - 48 else if c.toNat ≤ 70 then c.toNat - 55 else c.toNat - 87 := rfl

theorem digitValue_hexRanges_eq_toNat (c : Char) :
    digitValue c hexRanges =
      if 48 ≤ c.toNat ∧ c.toNat ≤ 57 then some (c.toNat - 48)
      else if 65 ≤ c.toNat ∧ c.toNat ≤ 70 then some (10 + (c.toNat - 65))
      else if 97 ≤ c.toNat ∧ c.toNat ≤ 102 then some (10 + (c.toNat - 97)) else none := by
  rw [← Nat.zero_add (c.toNat - 48)]
  rfl

/-- A character is a hexadecimal digit just when it lies in one of the three ranges (R252). -/
theorem digitValue_hexRanges (c : Char) (x : Nat) : digitValue c hexRanges = some x ↔ IsHexDigit c ∧ x = hexValue c := by
  rw [digitValue_hexRanges_eq_toNat, isHexDigit_iff_toNat, hexValue_eq_toNat]
  split_ifs <;> simp only [Option.some.injEq, false_iff] <;> omega

theorem hexValue_lt {c : Char} (h : IsHexDigit c) : hexValue c < 16 := by
  rw [isHexDigit_iff_toNat] at h
  rw [hexValue_eq_toNat]
  split_ifs <;> omega

/-! ### The readers (R251, R252) -/

theorem dropLead_eq_some_iff {lead t rest : Text} : dropLead lead t = some rest ↔ t = lead ++ rest := by
  induction lead generalizing t with
  | nil => simp [dropLead]
  | cons l ls ih =>
    cases t with
    | nil => simp [dropLead]
    | cons c cs =>
      rcases eq_or_ne l c with rfl | hc
      · simp [dropLead, ih]
      · simp [dropLead, hc, hc.symm]

/-- The reader of digits accepts digits only, and answers the number they spell. -/
theorem readDigits_eq_some_iff {base : Nat} {ranges : List DigitRange} {IsDigit : Char → Prop} {value : Char → Nat}
    (hdigit : ∀ c x, digitValue c ranges = some x ↔ IsDigit c ∧ x = value c) {ds : Text} {acc m : Nat} :
    readDigits base ranges acc ds = some m ↔
      (∀ c ∈ ds, IsDigit c) ∧ ds.foldl (fun a c => base * a + value c) acc = m := by
  induction ds generalizing acc with
  | nil => simp [readDigits]
  | cons c cs ih =>
    rw [readDigits]
    split
    next x hx =>
      obtain ⟨hc, rfl⟩ := (hdigit c x).mp hx
      simp [ih, hc]
    next hx =>
      have hc : ¬ IsDigit c := fun hc => by simp [(hdigit c _).mpr ⟨hc, rfl⟩] at hx
      simp [hc]

/-- Digits below the base spell a number below its power. -/
theorem readDigits_lt {base : Nat} {ranges : List DigitRange} (hlt : ∀ c x, digitValue c ranges = some x → x < base)
    {ds : Text} {acc k m : Nat} (hacc : acc < base ^ k) (h : readDigits base ranges acc ds = some m) :
    m < base ^ (k + ds.length) := by
  induction ds generalizing acc k with
  | nil =>
    cases h
    exact hacc
  | cons c cs ih =>
    rw [readDigits] at h
    split at h
    next x hx =>
      have hnext : base * acc + x < base ^ (k + 1) :=
        calc base * acc + x < base * (acc + 1) := Nat.add_lt_add_left (hlt c x hx) _
          _ ≤ base * base ^ k := Nat.mul_le_mul_left _ hacc
          _ = base ^ (k + 1) := (Nat.pow_succ').symm
      rw [List.length_cons, Nat.add_comm cs.length, ← Nat.add_assoc]
      exact ih hnext h
    next => cases h

theorem parseBit_eq_some_iff {line : Text} {n : Count} :
    parseBit line = some n ↔
      ∃ ds, line = bitLead ++ ds ∧ ds ≠ [] ∧ readDigits 10 decRanges 0 ds = some n.toNat ∧ n.toNat ≤ 64 := by
  constructor
  · intro h
    unfold parseBit at h
    split at h
    next => cases h
    next => cases h
    next c cs hlead =>
      split at h
      next m hm =>
        split at h
        next hle =>
          cases h
          have hm7 : (BitVec.ofNat 7 m).toNat = m := Nat.mod_eq_of_lt (hle.trans_lt (by decide))
          exact ⟨c :: cs, dropLead_eq_some_iff.mp hlead, List.cons_ne_nil _ _, by rw [hm7, hm], by rw [hm7]; exact hle⟩
        next => cases h
      next => cases h
  · rintro ⟨ds, hline, hne, hread, hle⟩
    obtain ⟨c, cs, rfl⟩ := List.exists_cons_of_ne_nil hne
    simp [parseBit, dropLead_eq_some_iff.mpr hline, hread, hle]

theorem parseKey_eq_some_iff {line : Text} {key : BitVec 32} :
    parseKey line = some key ↔
      ∃ ds, line = keyLead ++ ds ∧ ds.length = 8 ∧ readDigits 16 hexRanges 0 ds = some key.toNat := by
  constructor
  · intro h
    unfold parseKey at h
    split at h
    next => cases h
    next ds hlead =>
      split at h
      next hlen =>
        obtain ⟨m, hm, rfl⟩ := Option.map_eq_some_iff.mp h
        have hdigit : ∀ c x, digitValue c hexRanges = some x → x < 16 := fun c x hx => by
          obtain ⟨hc, rfl⟩ := (digitValue_hexRanges c x).mp hx
          exact hexValue_lt hc
        have hlt : m < 2 ^ 32 := by simpa [hlen] using readDigits_lt (k := 0) hdigit (by decide) hm
        exact ⟨ds, dropLead_eq_some_iff.mp hlead, hlen, by rw [BitVec.toNat_ofNat, Nat.mod_eq_of_lt hlt, hm]⟩
      next => cases h
  · rintro ⟨ds, hline, hlen, hread⟩
    simp [parseKey, dropLead_eq_some_iff.mpr hline, hlen, hread]

/-- Settles O54: the reader of digits, with the decimal digits, behind the fixed beginning. -/
theorem parseBitGrammar : Obligations.ParseBitGrammar := by
  intro line n
  simp only [parseBit_eq_some_iff, readDigits_eq_some_iff digitValue_decRanges, and_assoc]
  rfl

/-- Settles O55: the reader of digits, with the hexadecimal digits of either case, behind the fixed beginning. -/
theorem parseKeyGrammar : Obligations.ParseKeyGrammar := by
  intro line key
  simp only [parseKey_eq_some_iff, readDigits_eq_some_iff digitValue_hexRanges]
  rfl

/-- Settles O56, by whether each of the two lines parses. -/
theorem loadIssuesOneCommandOrFails : Obligations.LoadIssuesOneCommandOrFails := by
  refine fun p l1 l2 => ⟨fun n key h1 h2 => by simp [loadLines, h1, h2], ?_⟩
  rintro (h | h)
  · simp [loadLines, h]
  · simp [loadLines, h]

/-! ### The writers (R241, R242) -/

/-- What `digitChar` writes for the numbers below 16: an upper-case hexadecimal digit that stands for the number (R241). -/
theorem digitChar_upperHexDigit : ∀ d < 16,
    (('0' ≤ digitChar d ∧ digitChar d ≤ '9') ∨ ('A' ≤ digitChar d ∧ digitChar d ≤ 'F')) ∧
      (if digitChar d ≤ '9' then (digitChar d).toNat - 48 else (digitChar d).toNat - 55) = d := by decide

/-- What `digitChar` writes for the numbers below 10: a decimal digit that stands for the number (R242). -/
theorem digitChar_decDigit : ∀ d < 10,
    ('0' ≤ digitChar d ∧ digitChar d ≤ '9') ∧ (digitChar d).toNat - 48 = d ∧ (digitChar d = '0' → d = 0) := by decide

/-- Written digits spell what their numbers spell, by any way to read one digit that undoes the writing of one. -/
theorem foldl_map_digitChar {base : Nat} {value : Char → Nat} {ns : List Nat} (acc : Nat)
    (h : ∀ d ∈ ns, value (digitChar d) = d) :
    (ns.map digitChar).foldl (fun a c => base * a + value c) acc = ns.foldl (fun a d => base * a + d) acc := by
  rw [List.foldl_map]
  exact List.foldl_ext _ _ _ fun a d hd => by rw [h d hd]

/-- The eight 4-bit digits of a 32-bit word, most significant first. -/
def nibbles (x : BitVec 32) : List Nat := [7, 6, 5, 4, 3, 2, 1, 0].map fun i => (x.extractLsb' (4 * i) 4).toNat

theorem hex8_eq_map_nibbles (x : BitVec 32) : hex8 x = (nibbles x).map digitChar := rfl

theorem lt_of_mem_nibbles {x : BitVec 32} {d : Nat} (h : d ∈ nibbles x) : d < 16 := by
  obtain ⟨i, -, rfl⟩ := List.mem_map.mp h
  exact BitVec.isLt _

theorem foldl_nibbles (x : BitVec 32) : (nibbles x).foldl (fun a d => 16 * a + d) 0 = x.toNat := by
  have hx := x.isLt
  simp only [nibbles, List.map_cons, List.map_nil, List.foldl_cons, List.foldl_nil, BitVec.extractLsb'_toNat,
    Nat.shiftRight_eq_div_pow]
  omega

/-- The digits of `hex8` spell the word, by any way to read one digit that undoes the writing of one (R241). -/
theorem foldl_hex8 {value : Char → Nat} (h : ∀ d < 16, value (digitChar d) = d) (x : BitVec 32) :
    (hex8 x).foldl (fun a c => 16 * a + value c) 0 = x.toNat := by
  rw [hex8_eq_map_nibbles, foldl_map_digitChar 0 fun d hd => h d (lt_of_mem_nibbles hd), foldl_nibbles]

theorem exists_digit_of_mem_hex8 {x : BitVec 32} {c : Char} (h : c ∈ hex8 x) : ∃ d < 16, c = digitChar d := by
  rw [hex8_eq_map_nibbles] at h
  obtain ⟨d, hd, rfl⟩ := List.mem_map.mp h
  exact ⟨d, lt_of_mem_nibbles hd, rfl⟩

theorem exists_digit_of_mem_decDigits {fuel m : Nat} {c : Char} (h : c ∈ decDigits fuel m) :
    ∃ d < 10, c = digitChar d := by
  induction fuel generalizing m with
  | zero => simp [decDigits] at h
  | succ fuel ih =>
    rw [decDigits] at h
    split at h
    next hm => exact ⟨m, hm, by simpa using h⟩
    next =>
      rcases List.mem_append.mp h with h | h
      · exact ih h
      · exact ⟨m % 10, Nat.mod_lt _ (by decide), by simpa using h⟩

/-- With fuel for all of them, the decimal digits spell the number (R242). -/
theorem foldl_decDigits {fuel m : Nat} (h : m < 10 ^ fuel) :
    (decDigits fuel m).foldl (fun a c => 10 * a + (c.toNat - 48)) 0 = m := by
  induction fuel generalizing m with
  | zero => simp_all [decDigits]
  | succ fuel ih =>
    have hvalue : ∀ d < 10, (digitChar d).toNat - 48 = d := fun d hd => (digitChar_decDigit d hd).2.1
    rw [decDigits]
    split
    next hm => simp [hvalue m hm]
    next =>
      rw [List.foldl_append, ih (Nat.div_lt_of_lt_mul (by rwa [← Nat.pow_succ'])), List.foldl_cons, List.foldl_nil,
        hvalue _ (Nat.mod_lt _ (by decide)), Nat.div_add_mod]

/-- With fuel for all of them, the first decimal digit is zero for the number zero only (R242). -/
theorem head?_decDigits {fuel m : Nat} (h : m < 10 ^ (fuel + 1)) :
    ∃ d < 10, (decDigits (fuel + 1) m).head? = some (digitChar d) ∧ (d = 0 → m = 0) := by
  induction fuel generalizing m with
  | zero => exact ⟨m, by simpa using h, by simp_all [decDigits], id⟩
  | succ fuel ih =>
    rw [decDigits]
    split
    next hm => exact ⟨m, hm, rfl, id⟩
    next hm =>
      obtain ⟨d, hd, hhead, hzero⟩ := ih (Nat.div_lt_of_lt_mul (by rwa [← Nat.pow_succ']) : m / 10 < 10 ^ (fuel + 1))
      exact ⟨d, hd, by simp [hhead], fun h0 => by have := hzero h0; omega⟩

/-- Three digits are enough for a 7-bit count. -/
theorem toNat_count_lt_thousand (n : Count) : n.toNat < 10 ^ 3 := n.isLt.trans (by decide)

/-- Settles O57: the digits of `hex8` are the eight nibbles, those of `dec` come one by one from the remainders by 10. -/
theorem numbersAreWrittenInFull : Obligations.NumbersAreWrittenInFull := by
  refine ⟨fun v => ⟨rfl, fun c hc => ?_, ?_⟩, fun n => ⟨fun c hc => ?_, foldl_decDigits (toNat_count_lt_thousand n), ?_⟩, rfl⟩
  · obtain ⟨d, hd, rfl⟩ := exists_digit_of_mem_hex8 hc
    exact (digitChar_upperHexDigit d hd).1
  · rw [foldl_hex8 (value := fun c => if c ≤ '9' then c.toNat - 48 else c.toNat - 55) fun d hd => (digitChar_upperHexDigit d hd).2]
    exact BitVec.toNat_setWidth 32 v
  · obtain ⟨d, hd, rfl⟩ := exists_digit_of_mem_decDigits hc
    exact (digitChar_decDigit d hd).1
  · obtain ⟨d, hd, hhead, hzero⟩ := head?_decDigits (toNat_count_lt_thousand n)
    rw [dec, hhead]
    refine ⟨Option.some_ne_none _, fun hn h0 => hn (BitVec.eq_of_toNat_eq (hzero ?_))⟩
    exact (digitChar_decDigit d hd).2.2 (Option.some.inj h0)

/-! ### What is written reads back (R254) -/

theorem parseBit_dec {n : Count} (h : n.toNat ≤ 64) : parseBit (bitLead ++ dec n) = some n := by
  obtain ⟨-, hdec, -⟩ := numbersAreWrittenInFull
  obtain ⟨hdigits, hvalue, hne, -⟩ := hdec n
  exact (parseBitGrammar _ n).mpr ⟨dec n, rfl, by simpa using hne, hdigits, hvalue, h⟩

theorem parseKey_hex8 (x : BitVec 32) : parseKey (keyLead ++ hex8 x) = some x := by
  have hdigit : ∀ d < 16, IsHexDigit (digitChar d) ∧ d = hexValue (digitChar d) := fun d hd =>
    (digitValue_hexRanges _ d).mp (digitValue_hex_digitChar d hd)
  refine (parseKeyGrammar _ x).mpr ⟨hex8 x, rfl, rfl, fun c hc => ?_, foldl_hex8 (fun d hd => (hdigit d hd).2.symm) x⟩
  obtain ⟨d, hd, rfl⟩ := exists_digit_of_mem_hex8 hc
  exact (hdigit d hd).1

/-- A line is what stands before its LF (R250). -/
theorem recordLines_line {l t : Text} (h : '\n' ∉ l) : recordLines (l ++ '\n' :: t) = (recordLines t).map (l :: ·) := by
  induction l with
  | nil => simp [recordLines]
  | cons c cs ih =>
    obtain ⟨hc, hcs⟩ := not_or.mp (mt List.mem_cons.mpr h)
    rw [List.cons_append, recordLines, if_neg (Ne.symm hc), ih hcs]
    cases recordLines t <;> rfl

theorem digitChar_ne_lf : ∀ d < 16, '\n' ≠ digitChar d := by decide

theorem lf_not_mem_dec (n : Count) : '\n' ∉ dec n := fun h => by
  obtain ⟨d, hd, he⟩ := exists_digit_of_mem_decDigits h
  exact digitChar_ne_lf d (by omega) he

theorem lf_not_mem_hex8 (x : BitVec 32) : '\n' ∉ hex8 x := fun h => by
  obtain ⟨d, hd, he⟩ := exists_digit_of_mem_hex8 h
  exact digitChar_ne_lf d hd he

theorem recordLines_saveText {name : Text} (h : '\n' ∉ name) (n : Count) (v : Code) :
    recordLines (saveText name n v) = some [protocolLead ++ name, bitLead ++ dec n, keyLead ++ hex8 (lower32 v)] := by
  have hlines : saveText name n v =
      (protocolLead ++ name) ++ '\n' :: ((bitLead ++ dec n) ++ '\n' :: ((keyLead ++ hex8 (lower32 v)) ++ '\n' :: [])) := by
    simp [saveText, lf]
  have h0 : '\n' ∉ protocolLead ++ name := by simp [protocolLead, h]
  have h1 : '\n' ∉ bitLead ++ dec n := by simp [bitLead, lf_not_mem_dec]
  have h2 : '\n' ∉ keyLead ++ hex8 (lower32 v) := by simp [keyLead, lf_not_mem_hex8]
  rw [hlines, recordLines_line h0, recordLines_line h1, recordLines_line h2]
  rfl

/-- Among names without repetition each finds its own slot (R247). -/
theorem slotOfName_getElem? {names : List Text} (hnodup : names.Nodup) {q : Nat} {name : Text}
    (h : names[q]? = some name) (p : Nat) : slotOfName name p names = some (p + q) := by
  induction names generalizing p q with
  | nil => simp at h
  | cons x xs ih =>
    obtain ⟨hx, hxs⟩ := List.nodup_cons.mp hnodup
    cases q with
    | zero => simp_all [slotOfName]
    | succ q =>
      have hne : x ≠ name := fun he => hx (he ▸ List.mem_of_getElem? h)
      rw [slotOfName, if_neg hne, ih hxs h, Nat.add_right_comm, Nat.add_assoc]

theorem chooseSlot_name {h : HostConfig} (hnodup : h.names.Nodup) {p : SlotNo} {name : Text}
    (hname : h.names[p.toNat]? = some name) : chooseSlot h (protocolLead ++ name) = .ok p := by
  simp [chooseSlot, dropLead_eq_some_iff.mpr rfl, slotOfName_getElem? hnodup hname]

/-- Loading a save record issues the LOAD_LAST of the slot with its name, with the count and the low 32 bits of the code. -/
theorem loadRecord_saveText {h : HostConfig} {c : Config} (hwf : h.wf c = true) {p : SlotNo} {name : Text}
    (hname : h.names[p.toNat]? = some name) {n : Count} (hn : n.toNat ≤ 64) (v : Code) :
    loadRecord h (saveText name n v) = .ok (.loadLast p n (lower32 v)) := by
  obtain ⟨-, -, hnodup, hlf⟩ := (HostConfig.wf_iff h c).mp hwf
  obtain ⟨hload, -⟩ := loadIssuesOneCommandOrFails p (bitLead ++ dec n) (keyLead ++ hex8 (lower32 v))
  rw [loadRecord, recordLines_saveText (hlf name (List.mem_of_getElem? hname))]
  simp only [chooseSlot_name hnodup hname]
  exact hload n _ (parseBit_dec hn) (parseKey_hex8 _)

theorem exec_loadLast_of_le {s : State} {p : SlotNo} {n : Count} (key : BitVec 32) (hp : p.toNat < s.cfg.nDec)
    (hn : n.toNat ≤ 64) :
    exec (.loadLast p n key) s =
      respond .ok .empty (s.setReg p.toNat ((s.reg p.toNat).setLast (keyValue key) n)) :=
  (withSlot_lt hp).trans (withCount_le hn)

theorem keyValue_lower32 (v : Code) : keyValue (lower32 v) = v &&& 0xFFFFFFFF := by
  have hmask : v.toNat &&& 0xFFFFFFFF = v.toNat % 2 ^ 32 := Nat.and_two_pow_sub_one_eq_mod v.toNat 32
  have hfits : v.toNat % 2 ^ 32 < 2 ^ 64 := by omega
  refine BitVec.eq_of_toNat_eq ?_
  rw [keyValue, lower32, BitVec.toNat_setWidth, BitVec.toNat_setWidth, Nat.mod_eq_of_lt hfits, BitVec.toNat_and, ← hmask]
  rfl

/-- Settles O58: the record's lines are read back one by one, and the LOAD_LAST they give installs the code. -/
theorem saveThenLoadKeepsTheLowBits : Obligations.SaveThenLoadKeepsTheLowBits := by
  intro h s p name n v hwf hlen hname hn
  obtain ⟨hcount, -⟩ := (HostConfig.wf_iff h s.cfg).mp hwf
  obtain ⟨hp, -⟩ := List.getElem?_eq_some_iff.mp hname
  have hsave : formatSave h p (.last true n v) = .ok (saveText name n v) := by simp [formatSave, hname]
  refine ⟨rfl, _, _, _, hsave, by simp [saveText, lf, protocolLead, bitLead, keyLead, lower32],
    loadRecord_saveText hwf hname hn v, exec_loadLast_of_le _ (hcount ▸ hp) hn, ?_⟩
  rw [State.reg_emit, State.reg_setReg_self _ _ _ (by omega)]
  exact ⟨keyValue_lower32 v, rfl, rfl⟩

end Sys2Proof.Machine
end

section
/-! PROOFS. PULSE_ALL against the same pulse given to each slot in turn, and a sequence of commands as one slot sees it: the statements of `spec/45_dispatcher.md` R261 and R265. -/

namespace Sys2Proof.Machine

/-! ### PULSE and PULSE_ALL with an accepting sink -/

theorem State.sinkAccepts_after {s : State} (hs : s.sinkAccepts) (b : Block) (es : List Event) (r : Response) :
    (s.after b es r).sinkAccepts := fun x hx => hs x (List.mem_of_mem_drop hx)

theorem exec_pulse_accepts {s : State} {p : SlotNo} (lvl : Level) (d : Dur) (hp : p.toNat < s.cfg.nDec)
    (hs : s.sinkAccepts) :
    let out := stepSlot (s.tpl p.toNat) p lvl d (s.reg p.toNat)
    exec (.pulse p lvl d) s = .next (s.after (s.setReg p.toNat out.1).block out.2.toList ⟨.ok, .empty⟩) :=
  (withSlot_lt hp).trans (finish_accepts (s := s.setReg p.toNat _) hs)

theorem exec_pulseAll_accepts {s : State} (lvl : Level) (d : Dur) (hs : s.sinkAccepts) :
    let out := stepSlots lvl d 0 s.cfg.templates s.block.slots
    exec (.pulseAll lvl d) s = .next (s.after (s.setRegs out.1).block out.2 ⟨.ok, .empty⟩) :=
  finish_accepts (s := s.setRegs _) hs

/-! ### The pass over the slots, one PULSE at a time -/

/-- The pass from slot `p` on: the `Step` of slot `p`, then the pass from slot `p + 1` on. -/
theorem stepSlots_drop {s : State} (lvl : Level) (d : Dur) {p : Nat} (hlen : s.block.slots.length = s.cfg.nDec)
    (hp : p < s.cfg.nDec) :
    let one := stepSlot (s.tpl p) (BitVec.ofNat 8 p) lvl d (s.reg p)
    let more := stepSlots lvl d (p + 1) (s.cfg.templates.drop (p + 1)) (s.block.slots.drop (p + 1))
    stepSlots lvl d p (s.cfg.templates.drop p) (s.block.slots.drop p) = (one.1 :: more.1, one.2.toList ++ more.2) := by
  have ht : s.cfg.templates.drop p = s.tpl p :: s.cfg.templates.drop (p + 1) :=
    List.drop_eq_getElem?_toList_append.trans (by rw [State.getElem?_templates hp]; rfl)
  have hr : s.block.slots.drop p = s.reg p :: s.block.slots.drop (p + 1) :=
    List.drop_eq_getElem?_toList_append.trans (by rw [State.getElem?_slots (hlen ▸ hp)]; rfl)
  rw [ht, hr, stepSlots]

/-- PULSE to each of the last `n` slots in turn answers, and does what the pass over them does: their registers, and their events in order. -/
theorem runCommands_pulse_range' {lvl : Level} {d : Dur} {n p : Nat} {s : State}
    (hlen : s.block.slots.length = s.cfg.nDec) (hn : p + n = s.cfg.nDec) (h256 : s.cfg.nDec ≤ 256) (hs : s.sinkAccepts) :
    let out := stepSlots lvl d p (s.cfg.templates.drop p) (s.block.slots.drop p)
    ∃ t, runCommands ((List.range' p n).map fun q => .pulse (BitVec.ofNat 8 q) lvl d) s = .next t ∧
      t.block = (s.setRegs (s.block.slots.take p ++ out.1)).block ∧ t.cfg = s.cfg ∧
      eventsOf t.trace = eventsOf s.trace ++ out.2 := by
  induction n generalizing p s with
  | zero =>
    have ht : s.cfg.templates.drop p = [] := List.drop_eq_nil_of_le hn.ge
    exact ⟨s, rfl, by simp [ht, stepSlots, State.setRegs], rfl, by simp [ht, stepSlots]⟩
  | succ n ih =>
    have hp : p < s.cfg.nDec := by omega
    have hpNo : (BitVec.ofNat 8 p).toNat = p := by rw [BitVec.toNat_ofNat, Nat.mod_eq_of_lt (by omega)]
    have hexec := exec_pulse_accepts lvl d (hpNo.symm ▸ hp) hs
    rw [hpNo] at hexec
    set one := stepSlot (s.tpl p) (BitVec.ofNat 8 p) lvl d (s.reg p)
    set s1 := s.after (s.setReg p one.1).block one.2.toList ⟨.ok, .empty⟩
    have hrest : s1.block.slots.drop (p + 1) = s.block.slots.drop (p + 1) := List.drop_set_of_lt (Nat.lt_succ_self p)
    have hdone : s1.block.slots.take (p + 1) = s.block.slots.take p ++ [one.1] := by
      simp [s1, List.take_add_one, List.take_set_of_le, hlen, hp]
    obtain ⟨t, hrun, hblock, hcfg, hevents⟩ :=
      ih (p := p + 1) (s := s1) (by simpa [s1] using hlen) (by rw [State.after_cfg]; omega) h256
        (State.sinkAccepts_after hs _ _ _)
    rw [hrest, hdone] at hblock
    rw [hrest, eventsOf_after] at hevents
    rw [stepSlots_drop lvl d hlen hp]
    refine ⟨t, ?_, ?_, hcfg, ?_⟩
    · rw [List.range'_succ, List.map_cons, runCommands, hexec]
      exact hrun
    · exact hblock.trans (by rw [List.append_assoc]; rfl)
    · exact hevents.trans (List.append_assoc ..)

/-! ### A sequence of commands as one slot sees it -/

theorem exec_slots_length {i : Instr} {s s' : State} (hlen : s.block.slots.length = s.cfg.nDec)
    (h : exec i s = .next s') : s'.block.slots.length = s'.cfg.nDec := by
  rw [exec_cfg h]
  rcases exec_block hlen h with hb | ⟨p, n, v, -, -, -, hb⟩
  · simpa [hb, State.slotsNext] using hlen
  · simpa [hb] using hlen

/-- Each slot ends a sequence of commands as that slot's own template, registers and number make it (R25). -/
theorem runCommands_reg {is : List Instr} {s s' : State} {q : Nat} (hlen : s.block.slots.length = s.cfg.nDec)
    (hq : q < s.cfg.nDec) (h : runCommands is s = .next s') :
    s'.reg q = is.foldl (fun r i => slotNext i q (s.tpl q) r) (s.reg q) := by
  induction is generalizing s with
  | nil => cases h; rfl
  | cons i is ih =>
    obtain ⟨m, hm, h⟩ := runCommands_cons_next h
    have hc := exec_cfg hm
    have htpl : m.tpl q = s.tpl q := by rw [State.tpl, hc, State.tpl]
    rw [ih (exec_slots_length hlen hm) (hc ▸ hq) h, htpl, exec_reg hlen hq hm, List.foldl_cons]

/-- To slot `q`, PULSE_ALL is PULSE of slot `q`. -/
theorem slotNext_pulseAll (lvl : Level) (d : Dur) (q : SlotNo) (t : Template) (r : SlotRegs) :
    slotNext (.pulseAll lvl d) q.toNat t r = slotNext (.pulse q lvl d) q.toNat t r := by
  simp [slotNext]

/-! ### The statements -/

/-- Settles O30: the pass of PULSE_ALL over all the slots is the sequence of PULSE from slot 0 on. -/
theorem broadcastIsEachSlotInTurn : Obligations.BroadcastIsEachSlotInTurn := by
  intro s lvl d hc hlen hs
  obtain ⟨t, hrun, hblock, hcfg, hevents⟩ :=
    runCommands_pulse_range' (lvl := lvl) (d := d) hlen (Nat.zero_add _) (nDec_le_of_wf hc) hs
  rw [← List.range_eq_range'] at hrun
  exact ⟨_, t, exec_pulseAll_accepts lvl d hs, hrun, hblock.symm, hcfg.symm, (eventsOf_after ..).trans hevents.symm⟩

/-- Settles O31: the slot's registers fold over either sequence, and pulse by pulse the two folds take the same `Step`. -/
theorem broadcastLeavesEachSlotAsIfAlone : Obligations.BroadcastLeavesEachSlotAsIfAlone := by
  intro ps s u s' u' q hqs hqu hls hlu ht hr hs hu
  calc s'.reg q.toNat
      = ps.foldl (fun r x => slotNext (.pulseAll x.lvl x.dur) q.toNat (s.tpl q.toNat) r) (s.reg q.toNat) := by
        rw [runCommands_reg hls hqs hs, broadcastCommands, List.foldl_map]
    _ = ps.foldl (fun r x => slotNext (.pulse q x.lvl x.dur) q.toNat (u.tpl q.toNat) r) (u.reg q.toNat) := by
        simp only [slotNext_pulseAll, ht, hr]
    _ = u'.reg q.toNat := by rw [runCommands_reg hlu hqu hu, pulseCommands, List.foldl_map]

end Sys2Proof.Machine
end

section
/-! PROOFS. The events and the response of an answer are what its trace has gained, so a rejecting response leaves nothing else: the statement of `spec/60_exceptions.md` R302. -/

namespace Sys2Proof.Machine

/-- The trace determines the events and the response of an answer. -/
theorem State.after_trace_inj {s : State} {b : Block} {es es' : List Event} {r r' : Response}
    (h : (s.after b es r).trace = s.trace ++ es'.map PortRecord.event ++ [.response r']) : es = es' ∧ r = r' :=
  ⟨by simpa using congrArg eventsOf h, by simpa using congrArg responsesOf h⟩

/-- A state whose new records end with a rejecting response differs in the trace alone, and by that response alone (R302). -/
theorem State.Answers.eq_emit_of_rejected {s s' : State} {es : List Event} {r : Response} (h : s.Answers s')
    (ht : s'.trace = s.trace ++ es.map PortRecord.event ++ [.response r]) (hr : r.status ≠ .ok) :
    es = [] ∧ s' = s.emit (.response r) := by
  obtain ⟨b, es', r', rfl, hrejected⟩ := h
  obtain ⟨rfl, rfl⟩ := State.after_trace_inj ht
  obtain ⟨rfl, rfl⟩ := hrejected hr
  exact ⟨rfl, by simp [State.after, State.emit]⟩

/-- Settles O50: the step that takes a word answers it, and an answer with a status other than OK is that response alone. -/
theorem rejectedCommandChangesNothing : Obligations.RejectedCommandChangesNothing := by
  intro s s' w rest es r hw h ht hr
  rcases step_answers h with ⟨hnil, -⟩ | ⟨_, _, -, hanswer, -⟩
  · simp [hw] at hnil
  · obtain ⟨hes, rfl⟩ := hanswer.eq_emit_of_rejected ht hr
    exact ⟨hes, rfl, rfl, rfl⟩

end Sys2Proof.Machine
end

section
/-! PROOFS. The registers of the reset block field by field, and power-on reset as a write of that block alone: the statement of `spec/70_reset_and_hazards.md` R340. -/

namespace Sys2Proof.Machine

@[simp] theorem Block.reset_slots (c : Config) : (Block.reset c).slots = List.replicate c.nDec SlotRegs.reset := rfl
@[simp] theorem Block.reset_encBuf (c : Config) : (Block.reset c).encBuf = List.replicate c.encCap emptyEntry := rfl
@[simp] theorem Block.reset_encLen (c : Config) : (Block.reset c).encLen = 0 := rfl

@[simp] theorem State.powerOnReset_cfg (s : State) : s.powerOnReset.cfg = s.cfg := rfl
@[simp] theorem State.powerOnReset_block (s : State) : s.powerOnReset.block = Block.reset s.cfg := rfl

/-- Every slot of the reset block has the reset registers. -/
theorem Block.eq_reset_of_mem_slots {c : Config} {r : SlotRegs} (h : r ∈ (Block.reset c).slots) : r = SlotRegs.reset :=
  List.eq_of_mem_replicate h

/-- Every entry of the reset encoder buffer is the empty one. -/
theorem Block.eq_emptyEntry_of_mem_encBuf {c : Config} {e : Pulse} (h : e ∈ (Block.reset c).encBuf) : e = emptyEntry :=
  List.eq_of_mem_replicate h

/-- Settles O12: the reset block repeats the reset registers once per slot and the empty entry once per place of the buffer. -/
theorem powerOnResetValues : Obligations.PowerOnResetValues := by
  refine ⟨fun c => ⟨State.powerOn_cfg c, ?slotCount, ?registers, Block.reset_encLen c, ?bufferSize, ?entries⟩,
    fun s => ⟨s.powerOnReset_cfg, s.powerOnReset_block⟩⟩
  case slotCount => simp
  case bufferSize => simp
  case registers =>
    intro r hr
    obtain rfl := Block.eq_reset_of_mem_slots hr
    exact ⟨rfl, rfl, rfl, rfl, rfl, rfl, rfl⟩
  case entries =>
    intro e he
    obtain rfl := Block.eq_emptyEntry_of_mem_encBuf he
    exact ⟨rfl, rfl⟩

end Sys2Proof.Machine
end

section
/-! PROOFS. What a step takes from the command port and leaves there, and a run of steps: the statements on command words and on steps (`spec/30_encoding.md` R81, R84; `spec/20_memory.md` R62, R69; `spec/10_state.md` R30, R31; `spec/60_exceptions.md` R325). -/

namespace Sys2Proof

open Sys2Proof.Machine

/-! ### The operands of a decoded word (R84) -/

theorem Opcode.number_injective : Function.Injective Opcode.number := fun _ _ h =>
  Option.some.inj ((ofByte_eq_some_iff.mpr rfl).symm.trans (ofByte_eq_some_iff.mpr h))

/-- The OP byte says which operands a decoded command has. -/
theorem eq_assemble_of_op {w : CmdWord} {i : Instr} {o : Opcode} (h : decode w = .ok i) (hop : w.op = o.number) :
    i = o.assemble w := by
  obtain ⟨o', ⟨hop', -⟩, rfl⟩ := (decode_eq_ok_iff w i).mp h
  rw [Opcode.number_injective (hop'.symm.trans hop)]

theorem Level.ofBit_lvl (w : CmdWord) : Level.ofBit w.lvl = if w.getLsbD 16 then .high else .low := by
  have hbit : w.lvl = BitVec.ofBool (w.getLsbD 16) := by
    ext i hi
    obtain rfl : i = 0 := by omega
    simp [CmdWord.lvl]
  rw [hbit]
  cases w.getLsbD 16 <;> rfl

/-! ### A word as bytes (R62) -/

/-- The bytes `k` to `k + n - 1` of a word spell the bits from `8k` up to `8(k+n)`. -/
theorem littleEndian_bytes (w : CmdWord) (k n : Nat) :
    littleEndian ((List.range' k n).map fun j => w.extractLsb' (8 * j) 8) = w.toNat / 2 ^ (8 * k) % 2 ^ (8 * n) := by
  induction n generalizing k with
  | zero => simp [littleEndian, Nat.mod_one]
  | succ n ih =>
    have hpow : 2 ^ (8 * (n + 1)) = 256 * 2 ^ (8 * n) := by rw [Nat.mul_succ, Nat.pow_add, Nat.mul_comm]
    have hnext : w.toNat / 2 ^ (8 * (k + 1)) = w.toNat / 2 ^ (8 * k) / 256 := by
      rw [Nat.mul_succ, Nat.pow_add, Nat.div_div_eq_div_mul]
    rw [List.range'_succ, List.map_cons, littleEndian, ih, hnext, hpow, Nat.mod_mul, BitVec.extractLsb'_toNat,
      Nat.shiftRight_eq_div_pow]

theorem ofNat_littleEndian_bytesOfWord (w : CmdWord) : BitVec.ofNat 128 (littleEndian (bytesOfWord w)) = w := by
  rw [bytesOfWord, List.range_eq_range', littleEndian_bytes, Nat.mul_zero, Nat.pow_zero, Nat.div_one,
    Nat.mod_eq_of_lt w.isLt, BitVec.ofNat_toNat, BitVec.setWidth_eq]

end Sys2Proof

namespace Sys2Proof.Machine

/-! ### What a command makes of the ports -/

theorem exec_cmds {i : Instr} {s s' : State} (h : exec i s = .next s') : s'.cmds = s.cmds := by
  obtain ⟨b, es, r, rfl, -⟩ := exec_answers h; rfl

/-- What waits at the command port, and what the host has received before, decide nothing of a command: it adds the same records. -/
theorem exec_ports {i : Instr} {s t : State} (h : exec i s = .next t) :
    ∃ records, t.trace = s.trace ++ records ∧
      ∀ cmds tr,
        exec i { s with cmds := cmds, trace := tr } = .next { t with cmds := cmds, trace := tr ++ records } := by
  obtain ⟨records, ht, hk⟩ := exec_overlay rfl h
  generalize i.encoderSide = e at ht hk
  cases e <;>
  · exact ⟨records, congrArg (·.trace) ht, fun cmds tr => (hk { s with cmds := cmds, trace := tr }).trans
      (congrArg (fun m : State => Host.Outcome.next { m with cmds := cmds, trace := tr ++ records }) ht.symm)⟩

/-! ### Steps -/

theorem step_nil {s : State} (hc : s.cfg.wf = true) (hw : s.cmds = []) : step s = .next s := by
  rw [step, stepPort, if_pos hc, acceptCommand, hw]

theorem step_illFormed {s : State} (hc : s.cfg.wf = false) : step s = .refused .illFormedConfiguration :=
  if_neg (Bool.eq_false_iff.mp hc)

theorem step_cmds {s s' : State} (h : step s = .next s') : s'.cmds = s.cmds.tail := by
  rcases step_answers h with ⟨hw, rfl⟩ | ⟨w, rest, hw, ⟨b, es, r, rfl, -⟩, -⟩ <;> simp [hw]

/-- A step of a block with an accepting sink answers, and the sink goes on accepting. -/
theorem step_accepts {s : State} (hc : s.cfg.wf = true) (hs : s.sinkAccepts) :
    ∃ s', step s = .next s' ∧ s'.sinkAccepts := by
  cases hw : s.cmds with
  | nil => exact ⟨s, step_nil hc hw, hs⟩
  | cons w rest =>
    rw [step_cons hc hw]
    by_cases hl : LegalWord w
    · obtain ⟨i, hi⟩ := (legalWord_iff_decode w).mp hl
      obtain ⟨b, es, f, hk, -⟩ := exec_endsWith_status (s := { s with cmds := rest }) hs i
      rw [runWord_of_decode hi]
      exact ⟨_, hk, State.sinkAccepts_after (s := { s with cmds := rest }) hs b es _⟩
    · rw [runWord_of_not_legal hl]
      exact ⟨_, rfl, hs⟩

theorem run_succ_of_step {s s' : State} (h : step s = .next s') (k : Nat) :
    Host.Core.run Sys2Proof.core (k + 1) s = Host.Core.run Sys2Proof.core k s' := by
  simp only [Host.Core.run, show Sys2Proof.core.step s = .next s' from h]

/-! ### The statements -/

/-- Settles O1: the word of a command selects its opcode, and the operands are put together from the fields they were packed in. -/
theorem decodeOfEncodeIsTheCommand : Obligations.DecodeOfEncodeIsTheCommand := decode_encode

/-- Settles O14: `exec_inv` for the step that takes a word; waiting and ILLEGAL leave configuration and block. -/
theorem everyStepKeepsTheInvariant : Obligations.EveryStepKeepsTheInvariant := fun _ _ => step_inv

/-- Settles O3: the OP byte names the opcode whose operands were put together, and each operand is a field of the word. -/
theorem operandsAreTheNamedBits : Obligations.OperandsAreTheNamedBits := by
  intro w i h p level n d
  have hlevel : level = Level.ofBit w.lvl := (Level.ofBit_lvl w).symm
  have hi (o : Opcode) : w.op = o.number → i = o.assemble w := eq_assemble_of_op h
  rw [hlevel]
  exact ⟨hi .pulse, hi .pulseAll, hi .reset, hi .resetAll, hi .encode, hi .readEnc, hi .reverse, hi .loadLast,
    hi .readLast, hi .readState, hi .readTemplate⟩

/-- Settles O6: the bytes of a word spell the word. -/
theorem serializedWordDecodesAlike : Obligations.SerializedWordDecodesAlike := by
  refine ⟨fun w => ?_, fun bs hlen => if_neg hlen⟩
  have hlen : (bytesOfWord w).length = 16 := by simp [bytesOfWord]
  refine ⟨hlen, fun k hk => by simp [bytesOfWord, hk], ?_⟩
  rw [decodeBytes, if_pos hlen, ofNat_littleEndian_bytesOfWord]

/-- Settles O8, by induction on the commands: each step takes one word and runs its command, to which the words that wait behind it make no difference. -/
theorem commandSequenceIsThatManySteps : Obligations.CommandSequenceIsThatManySteps := by
  intro is
  induction is with
  | nil => exact fun s t _ h => h
  | cons i is ih =>
    intro s t hc h
    obtain ⟨m, hm, h⟩ := runCommands_cons_next h
    obtain ⟨records, htrace, hports⟩ := exec_ports hm
    have hexec : exec i { s with cmds := is.map encode ++ s.cmds } =
        .next { m with cmds := is.map encode ++ m.cmds } := by
      rw [hports _ s.trace, ← htrace, exec_cmds hm]
    have hstep := (step_cons (s := { s with cmds := (i :: is).map encode ++ s.cmds }) hc rfl).trans
      ((runWord_of_decode (decode_encode i) _).trans hexec)
    exact (run_succ_of_step hstep _).trans (ih m t (exec_cfg hm ▸ hc) h)

/-- Settles O11, from what a step can answer. -/
theorem configurationNeverChanges : Obligations.ConfigurationNeverChanges := fun _ _ h => ⟨step_cfg h, step_cmds h⟩

/-- Settles O16, by induction on the steps: a step keeps the configuration and leaves an accepting sink accepting. -/
theorem acceptingSinkRunsNeverStop : Obligations.AcceptingSinkRunsNeverStop := by
  intro s hc hs k
  induction k generalizing s with
  | zero => exact ⟨s, rfl⟩
  | succ k ih =>
    obtain ⟨s', hstep, hs'⟩ := step_accepts hc hs
    rw [run_succ_of_step hstep]
    exact ih s' (step_cfg hstep ▸ hc) hs'

/-- Settles O7, from the step that takes a word. -/
theorem stepRunsTheDecodedCommand : Obligations.StepRunsTheDecodedCommand :=
  fun _ _ _ _ hc hw hd => (step_cons hc hw).trans (runWord_of_decode hd _)

/-- Settles O9: with no word presented the port accepts none. -/
theorem waitingBlockKeepsItsState : Obligations.WaitingBlockKeepsItsState := fun _ => step_nil

/-- Settles O10: the checks are the conditions, `K ≤ 255` by its width, and construction and step both ask for the check. -/
theorem illFormedConfigurationIsRefused : Obligations.IllFormedConfigurationIsRefused := by
  refine ⟨fun t => ?_, Config.wf_iff, fun c hc => if_pos hc, fun c hc => if_neg (Bool.eq_false_iff.mp hc),
    fun s => step_illFormed⟩
  have hk : t.k.toNat < 256 := t.k.isLt
  rw [Template.wf_iff]
  omega

/-- Settles O13: the invariant at power-on, and the configuration of the spec's programs is well-formed. -/
theorem resetMeetsTheInvariant : Obligations.ResetMeetsTheInvariant :=
  ⟨fun _ => State.powerOn_inv, State.powerOn_inv (by decide)⟩

end Sys2Proof.Machine
end

section
/-! PROOFS. What a PULSE changes and leaves, what it does when the sink is stuck, and what a reset does: the statements of `spec/41_decoder.md` R130, R136, R137, `spec/45_dispatcher.md` R262, `spec/40_classifier.md` R112 and `spec/60_exceptions.md` R311. -/

namespace Sys2Proof.Machine

/-! ### Which registers a `Step` leaves -/

section
variable {t : Template} {lvl : Level} {d : Dur} {r : SlotRegs} (p : SlotNo)

theorem stepSlot_pend (h : ¬ (r.st = .awl ∧ lvl = .low ∧ isEOF t d = false)) :
    (stepSlot t p lvl d r).1.pend = r.pend := by
  have hc := stepSlot_cases t p lvl d r
  generalize stepSlot t p lvl d r = out at hc
  cases hc with
  | lowHalf hst hl hd => exact absurd ⟨hst, hl, hd⟩ h
  | _ => rfl

theorem stepSlot_buf (hstart : ¬ (r.st = .hdr ∧ lvl = .high ∧ isStart t d = true))
    (hsymbol : ¬ (r.st = .aw2 ∧ lvl = .high ∧ (sym t r.pend d).isSome = true ∧ r.bufn ≠ 64)) :
    (stepSlot t p lvl d r).1.bufv = r.bufv ∧ (stepSlot t p lvl d r).1.bufn = r.bufn := by
  have hc := stepSlot_cases t p lvl d r
  generalize stepSlot t p lvl d r = out at hc
  cases hc with
  | start hst hl hd => exact absurd ⟨hst, hl, hd⟩ hstart
  | symbol b hst hl hb hn => exact absurd ⟨hst, hl, by rw [hb]; rfl, hn⟩ hsymbol
  | _ => exact ⟨rfl, rfl⟩

theorem stepSlot_last_unchanged (h : ¬ (r.st = .awl ∧ lvl = .low ∧ isEOF t d = true ∧ t.minb.toNat ≤ r.bufn.toNat)) :
    let r' := (stepSlot t p lvl d r).1
    r'.lastv = r.lastv ∧ r'.lastn = r.lastn ∧ r'.lastok = r.lastok :=
  (stepSlot_last t p lvl d r).resolve_right fun ⟨_, hst, hn, hd, hl⟩ => h ⟨hst, hl, hd, hn⟩

end

/-- With tolerance 0 no duration is a header, so a slot in IDLE stays as it is (R112). -/
theorem stepSlot_idle_zeroTol {t : Template} {r : SlotRegs} (p : SlotNo) (lvl : Level) (d : Dur) (htol : t.tol = 0)
    (hst : r.st = .idle) : stepSlot t p lvl d r = (r, none) := by
  have hheader : isHeader t d = false := by simp [isHeader, htol, matchDur_zero]
  cases lvl with
  | low => exact stepSlot_idle_noHeader hst hheader
  | high => exact stepSlot_idle_high hst

/-! ### PULSE and the resets -/

/-- Writing back the registers of a slot changes nothing, also where there is no such slot. -/
theorem State.setReg_reg_self (s : State) (p : Nat) : s.setReg p (s.reg p) = s := by
  have hset : s.block.slots.set p (s.reg p) = s.block.slots :=
    (s.slots_mapIdx_at p id).symm.trans (List.ext_getElem (by simp) fun q _ _ => by simp)
  simp [State.setReg, hset]

theorem exec_pulse_of_lt {s : State} {p : SlotNo} (lvl : Level) (d : Dur) (hp : p.toNat < s.cfg.nDec) :
    let out := stepSlot (s.tpl p.toNat) p lvl d (s.reg p.toNat)
    exec (.pulse p lvl d) s = finish out.2.toList (s.setReg p.toNat out.1) := withSlot_lt hp

theorem exec_reset_of_lt {s : State} {p : SlotNo} (hp : p.toNat < s.cfg.nDec) :
    exec (.reset p) s = respond .ok .empty (s.setReg p.toNat ((s.reg p.toNat).goto .idle)) := withSlot_lt hp

/-- A sink that never accepts leaves the command without a next state (R311). -/
theorem finish_never {e : Event} {es : List Event} {s : State} {rest : List SinkReply} (h : s.sink = .never :: rest) :
    finish (e :: es) s = .fault .sinkNeverAccepts := by simp [finish, deliver, h]

/-- A sink that re-enters leaves the command without a next state (R351). -/
theorem finish_reenter {e : Event} {es : List Event} {s : State} {rest : List SinkReply}
    (h : s.sink = .reenter :: rest) : finish (e :: es) s = .fault .reentrantDeadlock := by simp [finish, deliver, h]

/-! ### The statements -/

/-- Settles O22: the answer differs from the state in the slot's registers and the ports alone, and each register is one that its `Step` leaves. -/
theorem pulseFrame : Obligations.PulseFrame := by
  intro s s' p lvl d hlen hp h t r r'
  rw [exec_pulse_of_lt lvl d hp] at h
  have hr' : r' = (stepSlot t p lvl d r).1 := by
    simp only [r', finish_next h, State.reg_emit, State.reg_delivered]
    exact State.reg_setReg_self s p.toNat _ (hlen ▸ hp)
  rw [hr', finish_next h]
  exact ⟨rfl, rfl, rfl, rfl, by simp, fun q => State.reg_setReg_ne s p.toNat q _, stepSlot_pend p, stepSlot_buf p,
    stepSlot_last_unchanged p⟩

/-- Settles O23, by induction on the pulses: each leaves the slot as it is and raises no event. -/
theorem zeroToleranceSlotStaysIdle : Obligations.ZeroToleranceSlotStaysIdle := by
  intro ps
  induction ps with
  | nil => intro s p _ _ _ _; simp [pulseCommands, runCommands]
  | cons x ps ih =>
    intro s p hlen hp htol hst
    have hexec : exec (.pulse p x.lvl x.dur) s = .next (s.emit (.response ⟨.ok, .empty⟩)) := by
      rw [exec_pulse_of_lt x.lvl x.dur hp, stepSlot_idle_zeroTol p x.lvl x.dur htol hst, State.setReg_reg_self]
      exact finish_nil s
    have hrest := ih (s.emit (.response ⟨.ok, .empty⟩)) p hlen hp htol hst
    simpa [pulseCommands, runCommands, hexec, State.emit, List.replicate_succ] using hrest

/-- Settles O21: the slot exists, and an accepting sink takes whatever the `Step` raises. -/
theorem pulseRunsOneStep : Obligations.PulseRunsOneStep := fun _ _ lvl d => exec_pulse_accepts lvl d

/-- Settles O27: RESET passes its slot check, and RESET_ALL has none. -/
theorem resetsWriteOnlyTheState : Obligations.ResetsWriteOnlyTheState := ⟨fun _ _ => exec_reset_of_lt, fun _ => rfl⟩

/-- Settles O53: the delivery of an event asks the sink first, and with no event to deliver there is nothing to ask. -/
theorem stuckSinkHasNoNextState : Obligations.StuckSinkHasNoNextState := by
  intro s p lvl d rest hp e
  have hexec : exec (.pulse p lvl d) s =
      finish e.toList (s.setReg p.toNat (stepSlot (s.tpl p.toNat) p lvl d (s.reg p.toNat)).1) :=
    exec_pulse_of_lt lvl d hp
  rw [hexec]
  clear_value e
  cases e with
  | none => exact ⟨nofun, nofun, fun _ => ⟨_, finish_nil _, rfl⟩⟩
  | some x => exact ⟨fun _ => finish_never (s := s.setReg _ _), fun _ => finish_reenter (s := s.setReg _ _), nofun⟩

end Sys2Proof.Machine
end

section
/-! PROOFS. The events of a command, said once for all eleven commands, and those of the pass over the slots in their order: the statements of `spec/45_dispatcher.md` R260 and `spec/60_exceptions.md` R310, R313. -/

namespace Sys2Proof.Machine

/-! ### The events of one `Step` and of the pass over the slots -/

theorem stepSlot_event_kind {t : Template} {p : SlotNo} {lvl : Level} {d : Dur} {r : SlotRegs} {e : Event}
    (h : e ∈ (stepSlot t p lvl d r).2.toList) : e.kind = .found ∨ (e.kind = .overflow ∧ e.nbits = 64) := by
  have hc := stepSlot_cases t p lvl d r
  generalize stepSlot t p lvl d r = out at hc h
  cases hc with
  | report =>
    obtain rfl : e = foundEvent p r := by simpa using h
    exact .inl rfl
  | overflow =>
    obtain rfl : e = overflowEvent p r := by simpa using h
    exact .inr ⟨rfl, rfl⟩
  | _ => simp at h

/-- Every event of the pass is one of a slot's own `Step`. -/
theorem exists_stepSlot_of_mem_stepSlots {lvl : Level} {d : Dur} {p : Nat} {ts : List Template} {rs : List SlotRegs}
    {e : Event} (h : e ∈ (stepSlots lvl d p ts rs).2) :
    ∃ k < ts.length, ∃ t r, e ∈ (stepSlot t (BitVec.ofNat 8 (p + k)) lvl d r).2.toList := by
  induction ts generalizing p rs with
  | nil => simp [stepSlots] at h
  | cons t ts ih =>
    cases rs with
    | nil => simp [stepSlots] at h
    | cons r rs =>
      rw [stepSlots, List.mem_append] at h
      rcases h with h | h
      · exact ⟨0, Nat.succ_pos _, t, r, h⟩
      · obtain ⟨k, hk, t', r', he⟩ := ih h
        exact ⟨k + 1, Nat.succ_lt_succ hk, t', r', by rwa [Nat.add_right_comm, Nat.add_assoc] at he⟩

/-- The slots of the events of the pass ascend (R70). -/
theorem stepSlots_events_ascend {lvl : Level} {d : Dur} {p : Nat} {ts : List Template} {rs : List SlotRegs}
    (hp : p + ts.length ≤ 256) :
    (stepSlots lvl d p ts rs).2.Pairwise fun a b => a.slot.toNat < b.slot.toNat := by
  induction ts generalizing p rs with
  | nil => simp [stepSlots]
  | cons t ts ih =>
    cases rs with
    | nil => simp [stepSlots]
    | cons r rs =>
      rw [List.length_cons] at hp
      rw [stepSlots, List.pairwise_append]
      refine ⟨Option.pairwise_toList, ih (by omega), fun a ha b hb => ?_⟩
      have hb := stepSlots_event_ge (by omega) hb
      rw [stepSlot_event_slot ha, BitVec.toNat_ofNat, Nat.mod_eq_of_lt (by omega)]
      exact hb

/-- The events of the last `n` slots in the pass are those of each slot's `Step`, in slot order. -/
theorem stepSlots_events_range' {s : State} (lvl : Level) (d : Dur) {n p : Nat}
    (hlen : s.block.slots.length = s.cfg.nDec) (hn : p + n = s.cfg.nDec) :
    (stepSlots lvl d p (s.cfg.templates.drop p) (s.block.slots.drop p)).2 =
      (List.range' p n).flatMap fun q => (stepSlot (s.tpl q) (BitVec.ofNat 8 q) lvl d (s.reg q)).2.toList := by
  induction n generalizing p with
  | zero =>
    have ht : s.cfg.templates.drop p = [] := List.drop_eq_nil_of_le hn.ge
    simp [ht, stepSlots]
  | succ n ih => rw [stepSlots_drop lvl d hlen (by omega), ih (by omega), List.range'_succ, List.flatMap_cons]

end Sys2Proof.Machine

namespace Sys2Proof

open Sys2Proof.Machine

/-! ### The events of a command -/

/-- The events that a command raises when it answers. -/
def Instr.raised (i : Instr) (s : State) : List Event :=
  match i with
  | .pulse p lvl d =>
    if p.toNat < s.cfg.nDec then (stepSlot (s.tpl p.toNat) p lvl d (s.reg p.toNat)).2.toList else []
  | .pulseAll lvl d => (stepSlots lvl d 0 s.cfg.templates s.block.slots).2
  | .reset _ | .resetAll | .encode _ _ _ | .readEnc _ | .reverse _ _ | .loadLast _ _ _ | .readLast _ | .readState _
  | .readTemplate _ => []

theorem Instr.raised_ascend (i : Instr) {s : State} (hn : s.cfg.nDec ≤ 256) :
    (i.raised s).Pairwise fun a b => a.slot.toNat < b.slot.toNat := by
  cases i with
  | pulse p lvl d => rw [raised]; split <;> [exact Option.pairwise_toList; exact .nil]
  | pulseAll lvl d => exact stepSlots_events_ascend ((Nat.zero_add _).trans_le hn)
  | _ => exact .nil

theorem Instr.mem_raised {i : Instr} {s : State} {e : Event} (hn : s.cfg.nDec ≤ 256) (h : e ∈ i.raised s) :
    e.slot.toNat < s.cfg.nDec ∧ (e.kind = .found ∨ (e.kind = .overflow ∧ e.nbits = 64)) := by
  cases i with
  | pulse p lvl d =>
    rw [raised] at h
    split at h
    next hp => exact ⟨stepSlot_event_slot h ▸ hp, stepSlot_event_kind h⟩
    next => cases h
  | pulseAll lvl d =>
    obtain ⟨k, hk, t, r, he⟩ := exists_stepSlot_of_mem_stepSlots h
    have hk : k < s.cfg.nDec := hk
    refine ⟨?_, stepSlot_event_kind he⟩
    rw [stepSlot_event_slot he, BitVec.toNat_ofNat, Nat.mod_eq_of_lt (by omega)]
    omega
  | _ => cases h

end Sys2Proof

namespace Sys2Proof.Machine

/-- If a command's run from `s` answers, it has raised the events `es`. -/
def Raises (s : State) (k : Result) (es : List Event) : Prop :=
  ∀ s', k = .next s' → ∃ b r, s' = s.after b es r

theorem Raises.respond {s t : State} {st : Status} {f : Payload} (ht : t = { s with block := t.block }) :
    Raises s (Machine.respond st f t) [] := fun s' h =>
  ⟨t.block, ⟨st, f⟩, by rw [respond_next h, ht]; simp [State.emit, State.after]⟩

theorem Raises.finish {s t : State} {es : List Event} (ht : t = { s with block := t.block }) :
    Raises s (Machine.finish es t) es := fun s' h =>
  ⟨t.block, ⟨.ok, .empty⟩, by rw [finish_next h, ht]; simp [State.emit, State.delivered, State.after]⟩

theorem Raises.withSlot {s : State} {p : SlotNo} {k : Result} {es : List Event} (h : Raises s k es) :
    Raises s (Machine.withSlot p s k) (if p.toNat < s.cfg.nDec then es else []) := by
  unfold Machine.withSlot
  split
  · exact h
  · exact .respond rfl

theorem Raises.withSlot_quiet {s : State} {p : SlotNo} {k : Result} (h : Raises s k []) :
    Raises s (Machine.withSlot p s k) [] := by simpa using h.withSlot

theorem Raises.withCount_quiet {s : State} {n : Count} {k : Result} (h : Raises s k []) :
    Raises s (Machine.withCount n s k) [] := by
  unfold Machine.withCount
  split
  · exact h
  · exact .respond rfl

theorem exec_raises (i : Instr) (s : State) : Raises s (exec i s) (i.raised s) := by
  cases i with
  | pulse p lvl d => exact .withSlot (.finish rfl)
  | pulseAll lvl d => exact .finish rfl
  | reset p => exact .withSlot_quiet (.respond rfl)
  | resetAll => exact .respond rfl
  | encode p n v =>
    refine .withSlot_quiet (.withCount_quiet ?_)
    split <;> exact .respond rfl
  | readEnc k =>
    simp only [exec, execReadEnc]
    split <;> exact .respond rfl
  | reverse n v => exact .withCount_quiet (.respond rfl)
  | loadLast p n key => exact .withSlot_quiet (.withCount_quiet (.respond rfl))
  | readLast p | readState p | readTemplate p => exact .withSlot_quiet (.respond rfl)

/-! ### The statements -/

/-- Settles O29: each slot ends as `exec_reg` says, and the events of the pass are the slots' own, in order. -/
theorem broadcastStepsEverySlot : Obligations.BroadcastStepsEverySlot := by
  intro s lvl d hlen hs out es
  have hexec := exec_pulseAll_accepts lvl d hs
  have hes : (stepSlots lvl d 0 s.cfg.templates s.block.slots).2 = es := by
    simpa [es, out, List.range_eq_range'] using stepSlots_events_range' lvl d hlen (Nat.zero_add _)
  refine ⟨_, hexec, fun q hq => exec_reg hlen hq hexec, ?_, ?_, ?_, rfl, rfl, rfl, rfl⟩
  · exact stepSlots_length ..
  · rw [← hes]; rfl
  · rw [← hes]; rfl

/-- Settles O52: the trace determines the events of an answer, and they are the ones `Instr.raised` lists. -/
theorem onlyPulsesRaiseEvents : Obligations.OnlyPulsesRaiseEvents := by
  intro i s s' es r hc h htrace
  have hn := nDec_le_of_wf hc
  obtain ⟨b, r', rfl⟩ := exec_raises i s s' h
  obtain ⟨rfl, -⟩ := State.after_trace_inj htrace
  refine ⟨?pulses, ?atMostOne, i.raised_ascend hn, fun e => Instr.mem_raised hn, fun γ host ctx hhost e he => ?callback⟩
  case pulses =>
    intro hne
    cases i with
    | pulse p lvl d => exact .inl ⟨p, lvl, d, rfl⟩
    | pulseAll lvl d => exact .inr ⟨lvl, d, rfl⟩
    | _ => exact absurd rfl hne
  case atMostOne =>
    rintro ⟨p, lvl, d, rfl⟩
    rw [Instr.raised]
    split
    · exact Option.length_toList_le
    · exact Nat.zero_le _
  case callback =>
    obtain ⟨name, hname⟩ := eventName_of_wf hhost (Instr.mem_raised hn he).1
    exact ⟨name, hname, hname, fun hk => foundCallback_found ctx hk hname, foundCallback_overflow ctx⟩

end Sys2Proof.Machine
end

section
/-! PROOFS. The encoded sequence entry by entry, as ENCODE writes it and as HEADER and SYM spell it, and what READ_ENC reads of it: the statements of `spec/43_encoder.md` R191, R192, R194, R198 and `spec/30_encoding.md` R91. -/

namespace Sys2Proof.Machine

/-! ### The encoder buffer entry by entry -/

section
variable {s : State} {ps : List Pulse} {i : Nat}

theorem State.writeEnc_getElem?_lt (h : i < ps.length) : (s.writeEnc ps).block.encBuf[i]? = ps[i]? :=
  List.getElem?_append_left h

theorem State.writeEnc_getElem?_ge (h : ps.length ≤ i) : (s.writeEnc ps).block.encBuf[i]? = s.block.encBuf[i]? := by
  rw [State.writeEnc_encBuf, List.getElem?_append_right h, List.getElem?_drop, Nat.add_sub_cancel' h]

theorem State.encEntry_of_getElem? {e : Pulse} (h : s.block.encBuf[i]? = some e) : s.encEntry i = e := by
  simp [State.encEntry, List.getD_eq_getElem?_getD, h]

end

/-- The two pulses of bit `j` stand at `2j` and `2j + 1` of a sequence of symbols. -/
theorem getElem?_flatMap_symbolPulses (t : Template) {bs : List Bool} {j : Nat} {b : Bool} (h : bs[j]? = some b) :
    (bs.flatMap (symbolPulses t))[2 * j]? = (symbolPulses t b)[0]? ∧
      (bs.flatMap (symbolPulses t))[2 * j + 1]? = (symbolPulses t b)[1]? := by
  induction bs generalizing j with
  | nil => simp at h
  | cons x bs ih =>
    rw [List.flatMap_cons]
    cases j with
    | zero =>
      obtain rfl : x = b := by simpa using h
      exact ⟨List.getElem?_append_left (by simp), List.getElem?_append_left (by simp)⟩
    | succ j =>
      obtain ⟨hlow, hhigh⟩ := ih (j := j) (by simpa using h)
      constructor
      · rw [← hlow, Nat.mul_succ, List.getElem?_append_right (by simp), symbolPulses_length, Nat.add_sub_cancel]
      · rw [← hhigh, Nat.mul_succ, Nat.add_right_comm, List.getElem?_append_right (by simp), symbolPulses_length,
          Nat.add_sub_cancel]

/-- The two pulses of the `j`-th bit sent stand after header and start bit. -/
theorem encodePulses_getElem?_symbol (t : Template) (v : Code) {n j : Nat} (hj : j < n) :
    (encodePulses t v n)[2 + 2 * j]? = (symbolPulses t (v.getLsbD (n - 1 - j)))[0]? ∧
      (encodePulses t v n)[3 + 2 * j]? = (symbolPulses t (v.getLsbD (n - 1 - j)))[1]? := by
  have hbit : (sentBits v n)[j]? = some (v.getLsbD (n - 1 - j)) := by simp [sentBits, hj]
  rw [encodePulses_eq_sentBits, show 2 + 2 * j = 2 * j + 1 + 1 by omega, show 3 + 2 * j = 2 * j + 1 + 1 + 1 by omega]
  exact getElem?_flatMap_symbolPulses t hbit

/-! ### READ_ENC -/

theorem exec_readEnc_of_lt {s : State} {i : BitVec 32} {e : Pulse} (hi : i.toNat < s.block.encLen)
    (he : s.block.encBuf[i.toNat]? = some e) :
    exec (.readEnc i) s = respond .ok (.entry s.block.encLen e.lvl e.dur) s := by
  rw [exec, execReadEnc, if_neg (Nat.not_le.mpr hi), State.encEntry_of_getElem? he]

theorem exec_readEnc_of_ge {s : State} {i : BitVec 32} (hi : s.block.encLen ≤ i.toNat) :
    exec (.readEnc i) s = respond .badIndex (.len s.block.encLen) s := if_pos hi

/-! ### HEADER, SYM and EOF (R91) -/

theorem fitDur_of_lt {x : Nat} (h : x < 2 ^ 32) : fitDur x = some (BitVec.ofNat 32 x) := if_pos h

theorem fitDur_of_ge {x : Nat} (h : 2 ^ 32 ≤ x) : fitDur x = none := if_neg (Nat.not_lt.mpr h)

section
variable {c : Config} {p : SlotNo} {t : Template} (ht : c.templates[p.toNat]? = some t)
include ht

theorem expand_header (hwf : t.wf = true) :
    (Pseudo.header p).expand c = some (pulseCommands p [⟨.low, headerDur t⟩, ⟨.high, t.short⟩]) := by
  obtain ⟨-, -, hfits⟩ := (Template.wf_iff t).mp hwf
  simp only [Pseudo.expand, ht, fitDur_of_lt (show t.short.toNat * t.k.toNat < 2 ^ 32 by omega)]
  rfl

theorem expand_sym (b : Bool) : (Pseudo.sym p b).expand c = some (pulseCommands p (symbolPulses t b)) := by
  simp only [Pseudo.expand, ht]
  cases b <;> rfl

theorem expand_eof :
    (Pseudo.eof p).expand c = (fitDur (t.short.toNat * 4)).map fun d => [.pulse p .low d] := by
  simp only [Pseudo.expand, ht, eofMult_eq]

end

/-! ### The statements -/

/-- Settles O37: the entries written are the encoded pulses one by one, and the later ones are kept. -/
theorem encodeWritesTheSequence : Obligations.EncodeWritesTheSequence := by
  intro s p n v hc hp hn hcap t
  have hlen : (encodePulses t v n.toNat).length = 2 + 2 * n.toNat := encodePulses_length ..
  have hwritten {i : Nat} (hi : i < 2 + 2 * n.toNat) :
      (s.writeEnc (encodePulses t v n.toNat)).block.encBuf[i]? = (encodePulses t v n.toNat)[i]? :=
    State.writeEnc_getElem?_lt (hlen ▸ hi)
  refine ⟨_, exec_encode_of_le v hp hn hcap, ⟨headerDur t, headerDur_toNat (State.tpl_wf hc hp), hwritten (by omega)⟩,
    hwritten (by omega), fun j hj => ?symbol, fun i hi => State.writeEnc_getElem?_ge (hlen ▸ hi), hlen,
    rfl, rfl, rfl, rfl, rfl⟩
  case symbol =>
    obtain ⟨hlow, hhigh⟩ := encodePulses_getElem?_symbol t v hj
    have hlow := (hwritten (by omega)).trans hlow
    have hhigh := (hwritten (by omega)).trans hhigh
    constructor <;>
    · intro hb
      rw [hb] at hlow hhigh
      exact ⟨hlow, hhigh⟩

/-- Settles O60: each pulse of the sequence is one PULSE of HEADER or of a SYM; EOF's duration is the threshold itself. -/
theorem macrosSpellTheEncodedSequence : Obligations.MacrosSpellTheEncodedSequence := by
  intro c p t v n hwf ht
  refine ⟨⟨_, expand_header ht hwf, ?_⟩, fun hfits => ?_, fun hover => ?_⟩
  · simp only [expand_sym ht, Option.getD_some]
    simp [pulseCommands, encodePulses, List.map_flatMap]
  · have hd : (BitVec.ofNat 32 (t.short.toNat * 4)).toNat = t.short.toNat * 4 := Nat.mod_eq_of_lt hfits
    exact ⟨_, by rw [expand_eof ht, fitDur_of_lt hfits]; rfl, (isEOF_iff t _).mpr hd.ge, hd⟩
  · rw [expand_eof ht, fitDur_of_ge hover]; rfl

/-- Settles O41: READ_ENC by its one check; right after reset there is no entry. -/
theorem readEncReturnsTheEntry : Obligations.ReadEncReturnsTheEntry :=
  ⟨fun _ _ _ => exec_readEnc_of_lt, fun _ _ => exec_readEnc_of_ge, fun _ _ => exec_readEnc_of_ge (Nat.zero_le _)⟩

end Sys2Proof.Machine
end

section
/-! PROOFS. The commands that answer a register, a template or a value, what repeating a command makes, and the texts formed from the last-found code: the statements of `spec/20_memory.md` R66, `spec/42_accumulator.md` R173, `spec/44_last_found_and_text.md` R222, R224, R240, R245, R248 and `spec/46_register_access.md` R280, R281. -/

namespace Sys2Proof.Machine

/-! ### The commands that only read -/

theorem State.tpl_of_getElem? {s : State} {p : Nat} {t : Template} (h : s.cfg.templates[p]? = some t) :
    p < s.cfg.nDec ∧ s.tpl p = t :=
  ⟨(List.getElem?_eq_some_iff.mp h).1, by simp [State.tpl, List.getD_eq_getElem?_getD, h]⟩

theorem State.reg_of_getElem? {s : State} {p : Nat} {r : SlotRegs} (h : s.block.slots[p]? = some r) : s.reg p = r := by
  simp [State.reg, List.getD_eq_getElem?_getD, h]

theorem DecState.code_inj {x y : DecState} : x.code = y.code ↔ x = y := by
  cases x <;> cases y <;> decide

/-- A run from `s` that only answers: its next state is `s` with one more response. -/
def OnlyResponds (s : State) (k : Result) : Prop := ∃ r, k = .next (s.emit (.response r))

theorem OnlyResponds.withSlot {s : State} {p : SlotNo} {k : Result} (h : OnlyResponds s k) :
    OnlyResponds s (Machine.withSlot p s k) := by
  unfold Machine.withSlot
  split
  · exact h
  · exact ⟨_, rfl⟩

theorem OnlyResponds.withCount {s : State} {n : Count} {k : Result} (h : OnlyResponds s k) :
    OnlyResponds s (Machine.withCount n s k) := by
  unfold Machine.withCount
  split
  · exact h
  · exact ⟨_, rfl⟩

theorem exec_readsOnly {i : Instr} (h : i.readsOnly) (s : State) : OnlyResponds s (exec i s) := by
  rcases h with ⟨p, rfl⟩ | ⟨p, rfl⟩ | ⟨p, rfl⟩ | ⟨k, rfl⟩ | ⟨n, v, rfl⟩
  case inl | inr.inl | inr.inr.inl => exact .withSlot ⟨_, rfl⟩
  case inr.inr.inr.inl =>
    simp only [exec, execReadEnc]
    split <;> exact ⟨_, rfl⟩
  case inr.inr.inr.inr => exact .withCount ⟨_, rfl⟩

/-! ### A reset repeated -/

/-- After RESET the slot is in IDLE, also where there is no such slot. -/
theorem State.st_reg_setReg_idle (s : State) (p : Nat) :
    ((s.setReg p ((s.reg p).goto .idle)).reg p).st = .idle := by
  rcases Nat.lt_or_ge p s.block.slots.length with hp | hp
  · rw [State.reg_setReg_self s p _ hp, SlotRegs.goto_st]
  · simp [State.reg, List.getD_eq_getElem?_getD, hp, SlotRegs.reset]

theorem exec_reset_again {p : SlotNo} {s s1 : State} (h : exec (.reset p) s = .next s1) :
    ∃ s2, exec (.reset p) s1 = .next s2 ∧ s2.block = s1.block := by
  rcases Nat.lt_or_ge p.toNat s.cfg.nDec with hp | hp
  · rw [exec_reset_of_lt hp] at h
    obtain rfl := respond_next h
    refine ⟨_, exec_reset_of_lt hp, ?_⟩
    rw [State.emit_block, State.reg_emit, SlotRegs.goto_self (s.st_reg_setReg_idle p.toNat)]
    exact congrArg State.block (State.setReg_reg_self (State.emit _ _) _)
  · obtain rfl := respond_next ((withSlot_ge hp).symm.trans h)
    exact ⟨_, withSlot_ge hp, rfl⟩

theorem exec_resetAll_again {s s1 : State} (h : exec .resetAll s = .next s1) :
    ∃ s2, exec .resetAll s1 = .next s2 ∧ s2.block = s1.block := by
  obtain rfl := respond_next h
  refine ⟨_, rfl, ?_⟩
  simp [State.setRegs, SlotRegs.goto]

/-! ### The statements -/

/-- Settles O46: a read only answers, and no command's answer depends on the trace; a reset leaves nothing for a second one to write. -/
theorem readsChangeNothingAndResetsAreIdempotent : Obligations.ReadsChangeNothingAndResetsAreIdempotent := by
  refine ⟨fun i s hi => ?reads, fun i s s1 hi h => ?resets⟩
  case reads =>
    obtain ⟨r, hr⟩ := exec_readsOnly hi s
    obtain ⟨records, htrace, hports⟩ := exec_ports hr
    obtain rfl : [.response r] = records := List.append_cancel_left htrace
    exact ⟨r, hr, fun tr => hports s.cmds tr⟩
  case resets =>
    rcases hi with ⟨p, rfl⟩ | rfl
    · exact exec_reset_again h
    · exact exec_resetAll_again h

/-- Settles O43, by the count check of REVERSE. -/
theorem reverseAnswersTheReversal : Obligations.ReverseAnswersTheReversal :=
  fun _ _ _ => ⟨withCount_le, withCount_gt⟩

/-- Settles O44: both operand checks pass, and one write of the slot's registers is left. -/
theorem loadLastInstallsTheCode : Obligations.LoadLastInstallsTheCode := fun _ _ _ key => exec_loadLast_of_le key

/-- Settles O45: the slot exists, so the reads pass their check, and the state codes are distinct. -/
theorem registerReadsAnswerTheRegisters : Obligations.RegisterReadsAnswerTheRegisters := by
  intro s p t r ht hr
  obtain ⟨hp, rfl⟩ := State.tpl_of_getElem? ht
  obtain rfl := State.reg_of_getElem? hr
  have hcode (x : DecState) : (s.reg p.toNat).st = x ↔ (s.reg p.toNat).st.code = x.code := DecState.code_inj.symm
  exact ⟨withSlot_lt hp, ⟨_, withSlot_lt hp, hcode .idle, hcode .hdr, hcode .awl, hcode .aw2⟩, withSlot_lt hp⟩

/-- Settles O59: the slot has a name, so the texts are formed from it; without a code there is no record. -/
theorem displayAndSaveFromReadLast : Obligations.DisplayAndSaveFromReadLast := by
  intro h p name ok n v hname
  refine ⟨?_, ?_, rfl⟩
  · simp [formatDisplay, hname, displayText, bitWord, crlf, keyField, yekField, lower32]
  · simp [formatSave, hname, saveText, protocolLead, bitLead, keyLead, lf, lower32]

end Sys2Proof.Machine
end
